-- ==== Sys2Proof/Word.lean ====
section
/-! DEFINITION. The two cell widths of HideCPU: 8-bit data cells and 16-bit code cells (spec R5, R20, R21). -/

namespace Sys2Proof

/-- The content of a data cell, a register, a data address or a code address (R20, R22, R33). -/
abbrev Byte := BitVec 8

/-- The content of a code cell: one instruction (R21, R75). -/
abbrev Word := BitVec 16

end Sys2Proof
end

