-- ==== Sys2Proof/Syntax.lean ====
section
/-! DEFINITION. The instructions of HideCPU: one constructor of Instr per row of spec/opcode_table.json, the six
reserved rows among them (R77, R83, R87, R88, R93). Register numbers and source types are constructors here;
their bits are in Sys2Proof/Decode.lean. -/

namespace Sys2Proof

/-- A general register, the target of formats A and B (R23, R79). -/
inductive GReg where
  | r0
  | r1
  | r2
  | r3
  deriving DecidableEq, Repr

/-- A special register, the register r(X+4) of load1 and store1 (R25, R79). -/
inductive SReg where
  | cr
  | flags
  | pc
  | lr
  deriving DecidableEq, Repr

/-- The eight registers, data cells 0x00 to 0x07 in this order (R22). -/
inductive Reg where
  | r0
  | r1
  | r2
  | r3
  | cr
  | flags
  | pc
  | lr
  deriving DecidableEq, Repr

/-- An operand in a data cell: source types 01, 10 and 11 of format A (R80, R81). -/
inductive Loc where
  /-- `[d]` -/
  | abs (d : Byte)
  /-- `[r0 + d]` -/
  | r0Rel (d : Byte)
  /-- `[r1 + d]` -/
  | r1Rel (d : Byte)
  deriving DecidableEq, Repr

/-- A format A source: the constant of source type 00, or a data cell (R80, R81). -/
inductive Src where
  | const (d : Byte)
  | cell (l : Loc)
  deriving DecidableEq, Repr

/-- The count of the `.n` shifts and rotates: three immediate bits or a general register (R84). -/
inductive Count where
  | imm (n : BitVec 3)
  | reg (r : GReg)
  deriving DecidableEq, Repr

/-- The six flags of cell 0x05 (R28). -/
inductive Flag where
  | minus
  | zero
  | carry
  | xtra1
  | xtra2
  | xtra3
  deriving DecidableEq, Repr

/-- The base test of a conditional branch, selected by `cond` (R191). -/
inductive Cond where
  | lt
  | gt
  | eq
  | ca
  | mi
  | xt1
  | xt2
  | xt3
  deriving DecidableEq, Repr

/-- One constructor per row of spec/opcode_table.json. A reserved row keeps every bit of its word that is not
fixed, so that the model fault can record the word (R221). -/
inductive Instr where
  -- opcodes 0 to 11, format A
  | load0 (b : GReg) (src : Src)
  | store0 (b : GReg) (dst : Loc)
  | store0Reserved (b : GReg) (d : Byte)
  | add (b : GReg) (src : Src)
  | sub (b : GReg) (src : Src)
  | and (b : GReg) (src : Src)
  | or (b : GReg) (src : Src)
  | xor (b : GReg) (src : Src)
  | cmp (b : GReg) (src : Src)
  | load1 (x : SReg) (src : Src)
  | store1 (x : SReg) (dst : Loc)
  | store1Reserved (x : SReg) (d : Byte)
  | swap (b : GReg) (dst : Loc)
  | swapReserved (b : GReg) (d : Byte)
  | loop (b : GReg) (src : Src)
  -- opcode 12, format B
  | shlN (b : GReg) (n : Count)
  | shrN (b : GReg) (n : Count)
  | rolN (b : GReg) (n : Count)
  | rorN (b : GReg) (n : Count)
  | rolc (b : GReg)
  | rorc (b : GReg)
  | unary6Reserved (b : GReg) (xx : BitVec 2) (arg : BitVec 4)
  | unary7Reserved (b : GReg) (xx : BitVec 2) (arg : BitVec 4)
  | shlCr (b : GReg)
  | shrCr (b : GReg)
  | rolCr (b : GReg)
  | rorCr (b : GReg)
  | adc (b : GReg)
  | sbm (b : GReg)
  | neg (b : GReg)
  | loadro (b : GReg)
  -- opcode 13, format C
  | setflags (mask : BitVec 6) (val : BitVec 6)
  -- opcode 14, format D
  | blt (d : Byte)
  | bgt (d : Byte)
  | beq (d : Byte)
  | bca (d : Byte)
  | bmi (d : Byte)
  | bxt1 (d : Byte)
  | bxt2 (d : Byte)
  | bxt3 (d : Byte)
  | bgte (d : Byte)
  | blte (d : Byte)
  | bne (d : Byte)
  | bnc (d : Byte)
  | bnm (d : Byte)
  | bnx1 (d : Byte)
  | bnx2 (d : Byte)
  | bnx3 (d : Byte)
  -- opcode 15, format E
  | mulConst (sg : Bool) (ms : GReg) (e : Byte)
  | mulReg (sg : Bool) (ms : GReg) (r : Reg)
  | mulReserved (sg : Bool) (ms : GReg) (e : Byte)
  deriving DecidableEq, Repr

end Sys2Proof
end

