-- ==== Sys2Proof/Config.lean ====
section
/-! DEFINITION. What an implementation of HideCPU fixes: the named parameters of spec R5, each with the settings
the spec lists for it, and the free values the spec leaves open. The values the model runs with stand in
Sys2Proof/Machine/Params.lean. Log 33 says which settings are the model's own for rows to which R5 lists only one. -/

namespace Sys2Proof.Config

/-- ARITH_FLAGS (R31, D8): which flags the arithmetic instructions write. -/
inductive ArithFlags where
  | none
  | havoc
  deriving DecidableEq, Repr

/-- CMP_MINUS (R180, D9): how cmp computes minus. -/
inductive CmpMinus where
  | unsignedLess
  | signedLess
  | diffBit7
  deriving DecidableEq, Repr

/-- SHR_FILL (R152, D11): the bit shifted in at the top by shr. -/
inductive ShrFill where
  | zero
  | sign
  deriving DecidableEq, Repr

/-- LOOP_TEST (R200, D16): when and how loop tests its register. -/
inductive LoopTest where
  | postNonzero
  | preNonzero
  | preZero
  deriving DecidableEq, Repr

/-- PAIR_HIGH (R54, D27): which register of the pair r0:r1 holds bits 15:8. -/
inductive PairHigh where
  | r0
  | r1
  deriving DecidableEq, Repr

/-- DONT_CARE_POLICY (R92, D18): whether bits with no use are ignored or must be zero. -/
inductive DontCarePolicy where
  | ignored
  | mustBeZero
  deriving DecidableEq, Repr

/-- MUL_LAYOUT (R88, D15, U6): the lowest bit of each field of encoding E; the fields are 1, 2, 1 and 8 bits wide and
share bits 11:0 below the opcode. DESIGN CHOICE (log 33): R5 lists one layout only, the default; that each field is
unbroken and may stand anywhere in bits 11:0 is the model's. -/
structure MulLayout where
  sg  : Nat
  ms  : Nat
  sel : Nat
  e   : Nat
  deriving DecidableEq, Repr

/-- LOADRO_ADDR (R165, D14, U7): where loadro takes its code address from. DESIGN CHOICE (log 33): R5 lists the first
setting only; the third is U7's safe alternative. -/
inductive LoadroAddr where
  /-- The target register `x[b]`. -/
  | target
  /-- One register, the same for every `b`. -/
  | register (r : Reg)
  /-- Not known: r0 and r1 hold any value after the instruction. -/
  | anyValue
  deriving DecidableEq, Repr

/-- RESERVED_POLICY (R93, D17, U1): what a reserved encoding does in the model. Neither setting has a next state. -/
inductive ReservedPolicy where
  | fault
  | stuck
  deriving DecidableEq, Repr

/-- FLAG_BIT (R29, D6): the bit position, 0 to 5, of each of the six flags. -/
structure FlagLayout where
  minus : Fin 6
  zero  : Fin 6
  carry : Fin 6
  xtra1 : Fin 6
  xtra2 : Fin 6
  xtra3 : Fin 6
  deriving DecidableEq, Repr

/-- The sixteen parameters of R5. -/
structure Params where
  /-- DATA_BYTES (R20, R59): the number of implemented data cells. -/
  dataBytes : Nat
  /-- CODE_WORDS (R21, R59): the number of implemented code cells. -/
  codeWords : Nat
  /-- PC_STEP (R38): what pc grows by after an instruction that did not write it. -/
  pcStep : Byte
  /-- PC_READ_OFFSET (R34): what a read of cell 0x06 adds to the address of the executing instruction. -/
  pcReadOffset : Byte
  flagBit : FlagLayout
  arithFlags : ArithFlags
  cmpMinus : CmpMinus
  /-- SHIFT_COUNT_BITS (R150): how many low bits of a register count are used, 3 to 8. -/
  shiftCountBits : Nat
  shrFill : ShrFill
  loopTest : LoopTest
  mulLayout : MulLayout
  pairHigh : PairHigh
  loadroAddr : LoadroAddr
  /-- RESET_PC (R42): the value of pc after reset. -/
  resetPc : Byte
  reserved : ReservedPolicy
  dontCare : DontCarePolicy
  deriving DecidableEq, Repr

/-- FREE VALUE (R42, U12; log 22): what data cell `a` holds before anything writes or preloads it.
It has no body, so that nothing can be proved of it. -/
opaque powerOnByte (a : Byte) : Byte

/-- FREE VALUE (R62, U13, D25; log 23): what code cell `a` holds where the loaded image does not define it,
fixed for the run. -/
opaque unloadedWord (a : Byte) : Word

/-- FREE VALUE (R31, U8; log 31): the n-th free flags byte drawn under ARITH_FLAGS = havoc. -/
opaque freeFlags (n : Nat) : Byte

/-- FREE VALUE (U7; log 31): the n-th free word drawn by loadro under LOADRO_ADDR = any value. -/
opaque freeWord (n : Nat) : Word

end Sys2Proof.Config
end

