-- ==== Sys2Proof/Machine/Params.lean ====
section
/-! DEFINITION. The parameter values the model runs with: the defaults of spec R5 and 92_eei_decisions.md. -/

namespace Sys2Proof.Machine

open Sys2Proof.Config

/-- UNVERIFIED (log 6): the spec's default FLAG_BIT (R29, D6). -/
def flagBitDefault : FlagLayout :=
  { minus := 0, zero := 1, carry := 2, xtra1 := 3, xtra2 := 4, xtra3 := 5 }

/-- UNVERIFIED (log 15): the spec's default MUL_LAYOUT (R88, D15). -/
def mulLayoutDefault : MulLayout :=
  { sg := 11, ms := 9, sel := 8, e := 0 }

/-- UNVERIFIED (log 1, 3 to 6, 8, 9, 11, 14 to 18, 20, 30): the spec's default for every parameter of R5. -/
def params : Params :=
  { dataBytes := 256
    codeWords := 256
    pcStep := 1
    pcReadOffset := 0
    flagBit := flagBitDefault
    arithFlags := .none
    cmpMinus := .unsignedLess
    shiftCountBits := 3
    shrFill := .zero
    loopTest := .postNonzero
    mulLayout := mulLayoutDefault
    pairHigh := .r0
    loadroAddr := .target
    resetPc := 0x00
    reserved := .fault
    dontCare := .ignored }

end Sys2Proof.Machine
end

