-- ==== Sys2Proof/WellFormed.lean ====
section
/-! DEFINITION. Which instructions and which parameter records are well-formed. The types of Sys2Proof/Syntax.lean
already bound every field but one: the reserved mul has a register index out of range (R89, R93). -/

namespace Sys2Proof

/-- A mul of the reserved row has `e[7:3]` nonzero; with `e[7:3] = 0` the word is the register form (R93 (5)). -/
def Instr.wellFormed : Instr → Bool
  | .mulReserved _ _ e => decide (8 ≤ e.toNat)
  | _ => true

namespace Config

/-- FLAG_BIT is injective (R29). -/
def FlagLayout.injective (l : FlagLayout) : Bool :=
  decide ([l.minus, l.zero, l.carry, l.xtra1, l.xtra2, l.xtra3].Nodup)

/-- The fields of encoding E cover bits 11:0, each bit once, as in the default (R88). DESIGN CHOICE (log 33): the
other layouts it admits are the model's. -/
def MulLayout.wellFormed (l : MulLayout) : Bool :=
  let bits := [l.sg, l.ms, l.ms + 1, l.sel] ++ (List.range 8).map (l.e + ·)
  decide bits.Nodup && bits.all (· < 12)

/-- The ranges R5 gives its parameters. The eight registers are implemented cells (R22; log 29). -/
def Params.wellFormed (p : Params) : Bool :=
  decide (8 ≤ p.dataBytes) && decide (p.dataBytes ≤ 256) && decide (p.codeWords ≤ 256) &&
    decide (3 ≤ p.shiftCountBits) && decide (p.shiftCountBits ≤ 8) && p.flagBit.injective && p.mulLayout.wellFormed

end Config

end Sys2Proof
end

