-- ==== Sys2Proof/Decode.lean ====
section
/-! DEFINITION. Decoding a 16-bit word (R75 to R93) and encoding an instruction. Bit 15 is the leftmost letter of
the source's drawings (R76; PRESUMED by the spec's G1, log 2). -/

namespace Sys2Proof

open Sys2Proof.Config

/-- The 2-bit target field `b` (R79). -/
def GReg.ofBits (v : BitVec 2) : GReg :=
  match v.toNat with
  | 0 => .r0
  | 1 => .r1
  | 2 => .r2
  | _ => .r3

/-- The 2-bit target field of load1 and store1, which names r(X+4) (R79). -/
def SReg.ofBits (v : BitVec 2) : SReg :=
  match v.toNat with
  | 0 => .cr
  | 1 => .flags
  | 2 => .pc
  | _ => .lr

/-- A 3-bit register index (R22, R89). -/
def Reg.ofBits (v : BitVec 3) : Reg :=
  match v.toNat with
  | 0 => .r0
  | 1 => .r1
  | 2 => .r2
  | 3 => .r3
  | 4 => .cr
  | 5 => .flags
  | 6 => .pc
  | _ => .lr

/-- The data cell named by source type `cc` and data `d`; type 00 names none (R80). -/
def Loc.ofBits (cc : BitVec 2) (d : Byte) : Option Loc :=
  match cc.toNat with
  | 0 => none
  | 1 => some (.abs d)
  | 2 => some (.r0Rel d)
  | _ => some (.r1Rel d)

/-- A format A source: the constant `d` for type 00 (R80, R81). -/
def Src.ofBits (cc : BitVec 2) (d : Byte) : Src :=
  match Loc.ofBits cc d with
  | none => .const d
  | some l => .cell l

/-- The argument of the `.n` shifts: `arg[3]` selects a register count, `arg[2]` then has no use (R84). -/
def Count.ofBits (arg : BitVec 4) : Count :=
  if arg.getLsbD 3 then .reg (GReg.ofBits (arg.extractLsb' 0 2)) else .imm (arg.extractLsb' 0 3)

/-- Format B: the sub-op selects the instruction (R82, R83). -/
def decodeUnary (b : GReg) (xx : BitVec 2) (sub arg : BitVec 4) : Instr :=
  match sub.toNat with
  | 0 => .shlN b (Count.ofBits arg)
  | 1 => .shrN b (Count.ofBits arg)
  | 2 => .rolN b (Count.ofBits arg)
  | 3 => .rorN b (Count.ofBits arg)
  | 4 => .rolc b
  | 5 => .rorc b
  | 6 => .unary6Reserved b xx arg
  | 7 => .unary7Reserved b xx arg
  | 8 => .shlCr b
  | 9 => .shrCr b
  | 10 => .rolCr b
  | 11 => .rorCr b
  | 12 => .adc b
  | 13 => .sbm b
  | 14 => .neg b
  | _ => .loadro b

/-- Format D: `inv` and `cond` select the condition (R86, R87), here as the 4-bit number `inv ++ cond`. -/
def decodeBranch (invCond : BitVec 4) (d : Byte) : Instr :=
  match invCond.toNat with
  | 0 => .blt d
  | 1 => .bgt d
  | 2 => .beq d
  | 3 => .bca d
  | 4 => .bmi d
  | 5 => .bxt1 d
  | 6 => .bxt2 d
  | 7 => .bxt3 d
  | 8 => .bgte d
  | 9 => .blte d
  | 10 => .bne d
  | 11 => .bnc d
  | 12 => .bnm d
  | 13 => .bnx1 d
  | 14 => .bnx2 d
  | _ => .bnx3 d

/-- The instruction of the fields of format E (R89, R93 (5)). UNVERIFIED (log 15): D15. -/
def decodeMul (sg : Bool) (ms : GReg) (sel : Bool) (e : Byte) : Instr :=
  if sel then .mulConst sg ms e
  else if e.toNat < 8 then .mulReg sg ms (Reg.ofBits (e.extractLsb' 0 3))
  else .mulReserved sg ms e

/-- Format E (R88), the fields where `l` places them. -/
def decodeFormatE (l : MulLayout) (w : Word) : Instr :=
  decodeMul (w.getLsbD l.sg) (GReg.ofBits (w.extractLsb' l.ms 2)) (w.getLsbD l.sel) (w.extractLsb' l.e 8)

/-- A format A instruction whose source type 00 is reserved (R93 (1) to (3)). -/
def decodeStoring (cell : Loc → Instr) (reserved : Byte → Instr) (cc : BitVec 2) (d : Byte) : Instr :=
  match Loc.ofBits cc d with
  | none => reserved d
  | some l => cell l

/-- The decoding algorithm of R91 under MUL_LAYOUT `l`: every 16-bit word is exactly one instruction or one reserved
row. -/
def decodeWith (l : MulLayout) (w : Word) : Instr :=
  let b := GReg.ofBits (w.extractLsb' 10 2)
  let x := SReg.ofBits (w.extractLsb' 10 2)
  let cc := w.extractLsb' 8 2
  let d := w.extractLsb' 0 8
  match (w.extractLsb' 12 4).toNat with
  | 0 => .load0 b (Src.ofBits cc d)
  | 1 => decodeStoring (.store0 b) (.store0Reserved b) cc d
  | 2 => .add b (Src.ofBits cc d)
  | 3 => .sub b (Src.ofBits cc d)
  | 4 => .and b (Src.ofBits cc d)
  | 5 => .or b (Src.ofBits cc d)
  | 6 => .xor b (Src.ofBits cc d)
  | 7 => .cmp b (Src.ofBits cc d)
  | 8 => .load1 x (Src.ofBits cc d)
  | 9 => decodeStoring (.store1 x) (.store1Reserved x) cc d
  | 10 => decodeStoring (.swap b) (.swapReserved b) cc d
  | 11 => .loop b (Src.ofBits cc d)
  | 12 => decodeUnary b cc (w.extractLsb' 4 4) (w.extractLsb' 0 4)
  | 13 => .setflags (w.extractLsb' 6 6) (w.extractLsb' 0 6)
  | 14 => decodeBranch (w.extractLsb' 8 4) d
  | _ => decodeFormatE l w

/-- The instruction or reserved row of a word with the default layout (R91). -/
def decodeWord (w : Word) : Instr := decodeWith Machine.params.mulLayout w

/-- The bits of `w` that the spec gives no use (R92): in format B, `W[9:8]`; `arg[2]` of a register count; `arg`
of every sub-op that takes no count. The reserved sub-ops have no use for any field and none is listed. -/
def unusedBits (w : Word) : Word :=
  if w.extractLsb' 12 4 = 12#4 then
    let sub := w.extractLsb' 4 4
    if sub.toNat < 4 then (if w.getLsbD 3 then 0x0304#16 else 0x0300#16)
    else if sub = 6#4 ∨ sub = 7#4 then 0x0000#16
    else 0x030F#16
  else 0x0000#16

/-- Decoding under a parameter record: `none` only where DONT_CARE_POLICY asks unused bits to be zero and one is
set (R92). With the default policy every word decodes. -/
def decode (p : Params) (w : Word) : Option Instr :=
  match p.dontCare with
  | .ignored => some (decodeWith p.mulLayout w)
  | .mustBeZero => if w &&& unusedBits w = 0 then some (decodeWith p.mulLayout w) else none

/-- Target field (R79). -/
def GReg.bits : GReg → BitVec 2
  | .r0 => 0
  | .r1 => 1
  | .r2 => 2
  | .r3 => 3

/-- Target field of load1 and store1 (R79). -/
def SReg.bits : SReg → BitVec 2
  | .cr => 0
  | .flags => 1
  | .pc => 2
  | .lr => 3

/-- Register index (R22, R89). -/
def Reg.bits : Reg → BitVec 3
  | .r0 => 0
  | .r1 => 1
  | .r2 => 2
  | .r3 => 3
  | .cr => 4
  | .flags => 5
  | .pc => 6
  | .lr => 7

/-- Source type and data of a data cell operand (R80). -/
def Loc.bits : Loc → BitVec 2 × Byte
  | .abs d => (1, d)
  | .r0Rel d => (2, d)
  | .r1Rel d => (3, d)

/-- Source type and data of a source (R80). -/
def Src.bits : Src → BitVec 2 × Byte
  | .const d => (0, d)
  | .cell l => l.bits

/-- The argument field of a count, `arg[2]` written as zero for a register count (R84, R92). -/
def Count.bits : Count → BitVec 4
  | .imm n => 0#1 ++ n
  | .reg r => 2#2 ++ r.bits

/-- Format A: `aaaa bb cc dddddddd` (R78). -/
def formatA (op : BitVec 4) (b cc : BitVec 2) (d : Byte) : Word := op ++ (b ++ (cc ++ d))

/-- Format B: `1100 bb XX ssss gggg` (R82). -/
def formatB (b xx : BitVec 2) (sub arg : BitVec 4) : Word := 12#4 ++ (b ++ (xx ++ (sub ++ arg)))

/-- Format C: `1101 mmmmmm vvvvvv` (R85). -/
def formatC (mask val : BitVec 6) : Word := 13#4 ++ (mask ++ val)

/-- Format D: `1110 i ccc dddddddd` (R86), with `inv ++ cond` as one 4-bit field. -/
def formatD (invCond : BitVec 4) (d : Byte) : Word := 14#4 ++ (invCond ++ d)

/-- Format E, the fields where `l` places them; by default `1111 s mm l eeeeeeee` (R88, D15). -/
def formatE (l : MulLayout) (sg : Bool) (ms : BitVec 2) (sel : Bool) (e : Byte) : Word :=
  0xF000#16 ||| ((BitVec.ofBool sg).zeroExtend 16 <<< l.sg ||| ms.zeroExtend 16 <<< l.ms |||
    ((BitVec.ofBool sel).zeroExtend 16 <<< l.sel ||| e.zeroExtend 16 <<< l.e))

/-- The word of an instruction under MUL_LAYOUT `l`, bits with no use written as zero, as the spec takes an assembler
to do (R92). -/
def encodeWith (l : MulLayout) : Instr → Word
  | .load0 b src => formatA 0 b.bits src.bits.1 src.bits.2
  | .store0 b dst => formatA 1 b.bits dst.bits.1 dst.bits.2
  | .store0Reserved b d => formatA 1 b.bits 0 d
  | .add b src => formatA 2 b.bits src.bits.1 src.bits.2
  | .sub b src => formatA 3 b.bits src.bits.1 src.bits.2
  | .and b src => formatA 4 b.bits src.bits.1 src.bits.2
  | .or b src => formatA 5 b.bits src.bits.1 src.bits.2
  | .xor b src => formatA 6 b.bits src.bits.1 src.bits.2
  | .cmp b src => formatA 7 b.bits src.bits.1 src.bits.2
  | .load1 x src => formatA 8 x.bits src.bits.1 src.bits.2
  | .store1 x dst => formatA 9 x.bits dst.bits.1 dst.bits.2
  | .store1Reserved x d => formatA 9 x.bits 0 d
  | .swap b dst => formatA 10 b.bits dst.bits.1 dst.bits.2
  | .swapReserved b d => formatA 10 b.bits 0 d
  | .loop b src => formatA 11 b.bits src.bits.1 src.bits.2
  | .shlN b n => formatB b.bits 0 0 n.bits
  | .shrN b n => formatB b.bits 0 1 n.bits
  | .rolN b n => formatB b.bits 0 2 n.bits
  | .rorN b n => formatB b.bits 0 3 n.bits
  | .rolc b => formatB b.bits 0 4 0
  | .rorc b => formatB b.bits 0 5 0
  | .unary6Reserved b xx arg => formatB b.bits xx 6 arg
  | .unary7Reserved b xx arg => formatB b.bits xx 7 arg
  | .shlCr b => formatB b.bits 0 8 0
  | .shrCr b => formatB b.bits 0 9 0
  | .rolCr b => formatB b.bits 0 10 0
  | .rorCr b => formatB b.bits 0 11 0
  | .adc b => formatB b.bits 0 12 0
  | .sbm b => formatB b.bits 0 13 0
  | .neg b => formatB b.bits 0 14 0
  | .loadro b => formatB b.bits 0 15 0
  | .setflags mask val => formatC mask val
  | .blt d => formatD 0 d
  | .bgt d => formatD 1 d
  | .beq d => formatD 2 d
  | .bca d => formatD 3 d
  | .bmi d => formatD 4 d
  | .bxt1 d => formatD 5 d
  | .bxt2 d => formatD 6 d
  | .bxt3 d => formatD 7 d
  | .bgte d => formatD 8 d
  | .blte d => formatD 9 d
  | .bne d => formatD 10 d
  | .bnc d => formatD 11 d
  | .bnm d => formatD 12 d
  | .bnx1 d => formatD 13 d
  | .bnx2 d => formatD 14 d
  | .bnx3 d => formatD 15 d
  | .mulConst sg ms e => formatE l sg ms.bits true e
  | .mulReg sg ms r => formatE l sg ms.bits false (0#5 ++ r.bits)
  | .mulReserved sg ms e => formatE l sg ms.bits false e

/-- The word of an instruction with the default layout. -/
def encode (i : Instr) : Word := encodeWith Machine.params.mulLayout i

/-- The instruction the decoder reads from the low `nbits` bits of `w`, the bits above them zero. A code cell is
one 16-bit word, so that the word needs no laying out in bytes (R54). -/
def decodeTableWord (nbits w : Nat) : Option Instr :=
  decode Machine.params (BitVec.ofNat 16 (w % 2 ^ nbits))

end Sys2Proof
end

