-- ==== Sys2Proof/Machine/State.lean ====
section
/-! DEFINITION. The state of the machine (R20 to R41), the reasons a step can stop (R221, R92) and the state after
reset (R42, R250). -/

namespace Sys2Proof.Machine

/-- The data cells 0x08 to 0xFF that were preloaded or written, as (address, byte) pairs with addresses strictly
rising. An address that is not listed holds no value of its own (log 22). -/
abbrev Memory := List Host.Cell

/-- The loaded code cells, as (address, word) pairs with addresses strictly rising (R21, R62; log 23, 24). -/
abbrev CodeSpace := List (Nat × Word)

/-- The whole state. The eight registers are the data cells 0x00 to 0x07 (R22): each has this one home, reached by
name or by address through State.cell and State.setCell. -/
structure State where
  /-- Data cell 0x00 (R23, R24). -/
  r0 : Byte
  /-- Data cell 0x01 (R23, R24). -/
  r1 : Byte
  /-- Data cell 0x02 (R23). -/
  r2 : Byte
  /-- Data cell 0x03 (R23). -/
  r3 : Byte
  /-- Data cell 0x04, the count of the `.cr` shifts (R26). -/
  cr : Byte
  /-- Data cell 0x05: six flags and two plain bits (R28 to R30). -/
  flags : Byte
  /-- Data cell 0x06: the code address of the next instruction (R33). -/
  pc : Byte
  /-- Data cell 0x07 (R27). -/
  lr : Byte
  /-- Data cells 0x08 to 0xFF (R57). -/
  ram : Memory
  /-- The code space, constant for a run (R21). DESIGN CHOICE (log 24): held in State because a step takes only a
  State. -/
  code : CodeSpace
  /-- THE MODEL'S OWN (log 31): how many free values ARITH_FLAGS = havoc and LOADRO_ADDR = any value have drawn. -/
  freeIndex : Nat
  deriving DecidableEq, Repr

/-- The three model faults of R221. None is an event of the hardware (R220); a faulted step writes nothing. -/
inductive Fault where
  /-- Raised by the six reserved rows (R93) under RESERVED_POLICY = fault, with the word and its address. SAFE: the hardware may go on, and no
  claim about what follows can be proved (D17, log 17). -/
  | reservedEncoding (word : Word) (address : Byte)
  /-- Raised by the fetch and by loadro for an address at or above CODE_WORDS (R59). SAFE. With the default of 256
  no state raises it. -/
  | codeOutOfRange (address : Byte)
  /-- Raised by any data access at or above DATA_BYTES (R51, R59). SAFE. With the default of 256 no state raises
  it. -/
  | dataOutOfRange (address : Byte)
  deriving DecidableEq, Repr

/-- Why a step has no meaning in the model. -/
inductive Refusal where
  /-- Raised by exec for an instruction whose meaning is not written yet. SAFE. No arm raises it. -/
  | notModelled (mnemonic : String)
  /-- Raised by step under DONT_CARE_POLICY = must be zero, for a word with a set bit that has no use (R92, U17).
  SAFE. With the default policy no state raises it. -/
  | unusedBitsSet (word : Word)
  /-- Raised by the six reserved rows under RESERVED_POLICY = stuck (U1): the step has no successor. SAFE. With the
  default policy no state raises it. -/
  | reservedStuck (word : Word)
  deriving DecidableEq, Repr

/-- What an instruction or a step answers. -/
abbrev Result := Host.Outcome State Fault Refusal

/-- The machine right after reset: pc at RESET_PC (R42, R250). The spec gives no other register a value: DESIGN
CHOICE 0x00 for each (log 21, UNSAFE). No data cell above 0x07 is listed and no code is loaded (log 22, 23). -/
def State.reset : State :=
  { r0 := 0x00, r1 := 0x00, r2 := 0x00, r3 := 0x00
    cr := 0x00, flags := 0x00, pc := params.resetPc, lr := 0x00
    ram := [], code := [], freeIndex := 0 }

end Sys2Proof.Machine
end

