-- ==== Sys2Proof/Machine/Ops.lean ====
section
/-! DEFINITION. The access primitives of the two spaces (R11, R51, R62), the register file as data cells (R22),
and the end of an instruction: its writes and the advance of pc (R36 to R38). HideCPU takes no exception and has no
return from one (R220, R225); what stands in their place is the one operation reservedStop. -/

namespace Sys2Proof.Machine

open Sys2Proof.Config

/-- The value listed for address `a`, if any. -/
def Memory.lookup {w : Nat} : List (Nat × BitVec w) → Nat → Option (BitVec w)
  | [], _ => none
  | (b, v) :: m, a => if b = a then some v else Memory.lookup m a

/-- Lists `v` at address `a`, keeping the addresses rising and replacing an older entry. -/
def Memory.insert {w : Nat} : List (Nat × BitVec w) → Nat → BitVec w → List (Nat × BitVec w)
  | [], a, v => [(a, v)]
  | (b, u) :: m, a, v =>
    if a < b then (a, v) :: (b, u) :: m
    else if a = b then (a, v) :: m
    else (b, u) :: Memory.insert m a v

/-- The canonical form: addresses strictly rising, all from `lo` up to but not at `hi`. An unlisted address holds no
value of its own, so no entry can equal it (log 22, 23). -/
def Memory.wf {w : Nat} : Nat → Nat → List (Nat × BitVec w) → Bool
  | _, _, [] => true
  | lo, hi, (a, _) :: m => decide (lo ≤ a) && decide (a < hi) && Memory.wf (a + 1) hi m

/-- The register named by a target field (R79). -/
def gRegReg : GReg → Reg
  | .r0 => .r0
  | .r1 => .r1
  | .r2 => .r2
  | .r3 => .r3

/-- The register r(X+4) of load1 and store1 (R25). -/
def sRegReg : SReg → Reg
  | .cr => .cr
  | .flags => .flags
  | .pc => .pc
  | .lr => .lr

/-- The data address of a register, which is also its index (R22). -/
def regAddr : Reg → Byte
  | .r0 => 0x00
  | .r1 => 0x01
  | .r2 => 0x02
  | .r3 => 0x03
  | .cr => 0x04
  | .flags => 0x05
  | .pc => 0x06
  | .lr => 0x07

/-- The data address of a general register (R22, R79). -/
def gAddr (b : GReg) : Byte := regAddr (gRegReg b)

/-- The data address of a special register (R22, R25). -/
def sAddr (x : SReg) : Byte := regAddr (sRegReg x)

/-- The register at a data address, for the first eight cells (R22). -/
def regAt (a : Byte) : Option Reg :=
  match a.toNat with
  | 0 => some .r0
  | 1 => some .r1
  | 2 => some .r2
  | 3 => some .r3
  | 4 => some .cr
  | 5 => some .flags
  | 6 => some .pc
  | 7 => some .lr
  | _ => none

/-- The register's content. -/
def State.reg (s : State) : Reg → Byte
  | .r0 => s.r0
  | .r1 => s.r1
  | .r2 => s.r2
  | .r3 => s.r3
  | .cr => s.cr
  | .flags => s.flags
  | .pc => s.pc
  | .lr => s.lr

/-- Replaces a register's content. -/
def State.setReg (s : State) (r : Reg) (v : Byte) : State :=
  match r with
  | .r0 => { s with r0 := v }
  | .r1 => { s with r1 := v }
  | .r2 => { s with r2 := v }
  | .r3 => { s with r3 := v }
  | .cr => { s with cr := v }
  | .flags => { s with flags := v }
  | .pc => { s with pc := v }
  | .lr => { s with lr := v }

/-- The content `D[a]` of data cell `a` (R20, R22). A cell above 0x07 that nothing wrote or preloaded holds a free
value (R42; log 22). -/
def State.cell (s : State) (a : Byte) : Byte :=
  match regAt a with
  | some r => s.reg r
  | none => (Memory.lookup s.ram a.toNat).getD (powerOnByte a)

/-- `D[a] <- v` (R20, R22). -/
def State.setCell (s : State) (a v : Byte) : State :=
  match regAt a with
  | some r => s.setReg r v
  | none => { s with ram := Memory.insert s.ram a.toNat v }

/-- The content `Code[a]` of code cell `a` (R21). A cell the image does not define holds a free word (R62; log 23). -/
def State.codeCell (s : State) (a : Byte) : Word :=
  (Memory.lookup s.code a.toNat).getD (unloadedWord a)

/-- Loads a code cell. Only the environment does so, before a run (R251); no instruction does (R63). -/
def State.setCodeCell (s : State) (a : Byte) (w : Word) : State :=
  { s with code := Memory.insert s.code a.toNat w }

/-- The value MemRead gives for an implemented cell: `A + PC_READ_OFFSET` for cell 0x06, where `A` is the address of
the executing instruction, else the cell's content (R34, R51). UNVERIFIED (log 3): the offset is the spec's D3. -/
def State.peek (p : Params) (s : State) (a : Byte) : Byte :=
  if a = regAddr .pc then s.pc + p.pcReadOffset else s.cell a

/-- `MemRead(a, 1)` (R51): hands the value to `k`, or faults for a cell that is not implemented (R59). -/
def State.read (p : Params) (s : State) (a : Byte) (k : Byte → Result) : Result :=
  if a.toNat < p.dataBytes then k (s.peek p a) else .fault (.dataOutOfRange a)

/-- `CodeRead(a)` (R62): hands the word to `k`, or faults for a cell that is not implemented (R59). -/
def State.codeRead (p : Params) (s : State) (a : Byte) (k : Word → Result) : Result :=
  if a.toNat < p.codeWords then k (s.codeCell a) else .fault (.codeOutOfRange a)

/-- One scheduled write: address and value (R51). -/
abbrev Write := Byte × Byte

/-- Applies scheduled writes in order, so that a later write of the same cell wins (R37). -/
def State.applyWrites (s : State) (ws : List Write) : State :=
  ws.foldl (fun t w => t.setCell w.1 w.2) s

/-- pc after an instruction that did not write it (R38). UNVERIFIED (log 4): step and wrap are the spec's D4. -/
def State.advance (p : Params) (s : State) : State :=
  { s with pc := s.pc + p.pcStep }

/-- The state the writes lead to: applied after all reads, and pc advanced from the executing instruction's address
unless one of them addressed cell 0x06 (R35, R36 (6) and (7), R38). -/
def State.settle (p : Params) (s : State) (ws : List Write) : State :=
  if ws.any (fun w => w.1 = regAddr .pc) then s.applyWrites ws else (s.advance p).applyWrites ws

/-- Ends an instruction with its scheduled writes, or faults at the first one to a cell that is not implemented,
writing nothing (R51, R59, R221, R224). -/
def State.commit (p : Params) (s : State) (ws : List Write) : Result :=
  match ws.find? (fun w => p.dataBytes ≤ w.1.toNat) with
  | some w => .fault (.dataOutOfRange w.1)
  | none => .next (s.settle p ws)

/-- What a reserved encoding does: the model fault with the word and its address, and no write (R93, R221), or a stuck
state (U1). UNVERIFIED (log 17): RESERVED_POLICY = fault is the spec's D17. -/
def State.reservedStop (p : Params) (s : State) (w : Word) : Result :=
  match p.reserved with
  | .fault => .fault (.reservedEncoding w s.pc)
  | .stuck => .refused (.reservedStuck w)

/-- The fetch and decode of R36 (1) to (4) under parameters `p`: hands the instruction at pc to `k`. -/
def State.fetchDecode (p : Params) (s : State) (k : Instr → Result) : Result :=
  s.codeRead p s.pc fun w =>
    match decode p w with
    | some i => k i
    | none => .refused (.unusedBitsSet w)

/-- The canonical form of a whole state: both lists rising and inside their space (R20, R21, R57). -/
def State.wf (s : State) : Bool :=
  Memory.wf 8 256 s.ram && Memory.wf 0 256 s.code

/-- What the environment may do to a machine before its first step: fix the code space and preload data cells
0x08 to 0xFF (R251, D26; log 24). -/
def State.launch (s : State) (code : CodeSpace) (ram : Memory) : State :=
  { s with code := code, ram := ram }

end Sys2Proof.Machine
end

