-- ==== Sys2Proof/Machine/Operands.lean ====
section
/-! DEFINITION. Every operand form: format A sources and cells (R80, R81), shift counts (R84, R150), the mul
multiplier (R89) and the word loadro reads (R165). -/

namespace Sys2Proof.Machine

open Sys2Proof.Config

/-- `ea(cc, d)` (R81), with the base registers as they were before the instruction; the sum wraps modulo 256
(R53; UNVERIFIED, log 5). -/
def State.ea (p : Params) (s : State) : Loc → Byte
  | .abs d => d
  | .r0Rel d => s.peek p (regAddr .r0) + d
  | .r1Rel d => s.peek p (regAddr .r1) + d

/-- `src(cc, d)` (R81) where every cell it reads is implemented. -/
def State.operand (p : Params) (s : State) : Src → Byte
  | .const d => d
  | .cell l => s.peek p (s.ea p l)

/-- Hands the effective address to `k`, reading the base register where the form has one. -/
def State.withEa (p : Params) (s : State) (l : Loc) (k : Byte → Result) : Result :=
  match l with
  | .abs _ => k (s.ea p l)
  | .r0Rel _ => s.read p (regAddr .r0) fun _ => k (s.ea p l)
  | .r1Rel _ => s.read p (regAddr .r1) fun _ => k (s.ea p l)

/-- Hands the value of a format A source to `k` (R81). -/
def State.withSrc (p : Params) (s : State) (src : Src) (k : Byte → Result) : Result :=
  match src with
  | .const d => k d
  | .cell l => s.withEa p l fun a => s.read p a k

/-- How many low bits of a register give a count: `v mod 2^SHIFT_COUNT_BITS` (R150; UNVERIFIED, log 11). -/
def regCount (p : Params) (v : Byte) : Nat := v.toNat % 2 ^ p.shiftCountBits

/-- The count of a `.n` shift: the immediate, or the low bits of a general register (R84, R150). -/
def State.count (p : Params) (s : State) : Count → Nat
  | .imm n => n.toNat
  | .reg r => regCount p (s.peek p (gAddr r))

/-- Hands the count of a `.n` shift to `k` (R150). -/
def State.withCount (p : Params) (s : State) (n : Count) (k : Nat → Result) : Result :=
  match n with
  | .imm _ => k (s.count p n)
  | .reg r => s.read p (gAddr r) fun _ => k (s.count p n)

/-- Hands the count of a `.cr` shift, the low bits of cr, to `k` (R150). -/
def State.withCrCount (p : Params) (s : State) (k : Nat → Result) : Result :=
  s.read p (regAddr .cr) fun v => k (regCount p v)

/-- Hands the word loadro loads to `k`, with the state that counts the free word drawn, if one is: the code cell at
the address in the target register, read before the write (R165), or what another LOADRO_ADDR gives.
UNVERIFIED (log 14): the default `x[b]` is the spec's D14. -/
def State.withLoadroWord (p : Params) (s : State) (b : GReg) (k : State → Word → Result) : Result :=
  match p.loadroAddr with
  | .target => s.read p (gAddr b) fun a => s.codeRead p a (k s)
  | .register r => s.read p (regAddr r) fun a => s.codeRead p a (k s)
  | .anyValue => k { s with freeIndex := s.freeIndex + 1 } (freeWord s.freeIndex)

/-- The writes of a 16-bit result to the pair r0:r1 (R54, R165, R205). UNVERIFIED (log 30): which register is high
is the spec's D27. -/
def pairWrites (p : Params) (v : Word) : List Write :=
  match p.pairHigh with
  | .r0 => [(regAddr .r0, v.extractLsb' 8 8), (regAddr .r1, v.extractLsb' 0 8)]
  | .r1 => [(regAddr .r0, v.extractLsb' 0 8), (regAddr .r1, v.extractLsb' 8 8)]

end Sys2Proof.Machine
end

