-- ==== Sys2Proof/Machine/Flags.lean ====
section
/-! DEFINITION. The flags cell: reading and writing one flag (R12), every flag computation (R31, R155, R156, R180,
R185), the tests of the branches (R191) and the side effects of ARITH_FLAGS = havoc (R31). -/

namespace Sys2Proof.Machine

open Sys2Proof.Config

/-- FLAG_BIT(f) (R29). -/
def flagPos (l : FlagLayout) : Flag → Nat
  | .minus => l.minus.val
  | .zero => l.zero.val
  | .carry => l.carry.val
  | .xtra1 => l.xtra1.val
  | .xtra2 => l.xtra2.val
  | .xtra3 => l.xtra3.val

/-- `flag(f)` of a flags byte (R12). -/
def flagOf (l : FlagLayout) (v : Byte) (f : Flag) : Bool := v.getLsbD (flagPos l f)

/-- The byte with only the bit of flag `f` set (R186). -/
def flagMask (l : FlagLayout) (f : Flag) : Byte := 1#8 <<< flagPos l f

/-- `flag(f) <- x` on a flags byte: the other seven bits stay (R12). -/
def withFlag (l : FlagLayout) (v : Byte) (f : Flag) (x : Bool) : Byte :=
  if x then v ||| flagMask l f else v &&& ~~~(flagMask l f)

/-- `flag(f)` of the state (R12). -/
def State.flag (p : Params) (s : State) (f : Flag) : Bool := flagOf p.flagBit s.flags f

/-- Minus after cmp (R180). UNVERIFIED (log 9): the default reading is the spec's D9. -/
def cmpMinusFlag (how : CmpMinus) (a s : Byte) : Bool :=
  match how with
  | .unsignedLess => decide (a.toNat < s.toNat)
  | .signedLess => decide (a.toInt < s.toInt)
  | .diffBit7 => (a - s).getLsbD 7

/-- The flags byte after cmp: zero and minus written, the other six bits kept (R180). -/
def cmpFlags (p : Params) (flags a s : Byte) : Byte :=
  withFlag p.flagBit (withFlag p.flagBit flags .zero (decide (a = s))) .minus (cmpMinusFlag p.cmpMinus a s)

/-- The flags byte after setflags: `(flags & ~mask) | (mask & val)` with both fields zero-extended (R185). -/
def setflagsByte (flags : Byte) (mask val : BitVec 6) : Byte :=
  (flags &&& ~~~(mask.zeroExtend 8)) ||| (mask.zeroExtend 8 &&& val.zeroExtend 8)

/-- The base test of a branch (R191). -/
def baseTest (l : FlagLayout) (flags : Byte) : Cond → Bool
  | .lt => flagOf l flags .minus && !flagOf l flags .zero
  | .gt => !flagOf l flags .minus && !flagOf l flags .zero
  | .eq => flagOf l flags .zero
  | .ca => flagOf l flags .carry
  | .mi => flagOf l flags .minus
  | .xt1 => flagOf l flags .xtra1
  | .xt2 => flagOf l flags .xtra2
  | .xt3 => flagOf l flags .xtra3

/-- The test of a branch: `inv` negates the base test (R191). -/
def branchTest (l : FlagLayout) (flags : Byte) (inv : Bool) (c : Cond) : Bool :=
  inv ^^ baseTest l flags c

/-- `v` with the bit of flag `f` taken from `x`. -/
def flagFrom (l : FlagLayout) (x : Byte) (v : Byte) (f : Flag) : Byte :=
  withFlag l v f (flagOf l x f)

/-- The flags byte an arithmetic instruction leaves, where its own rule gives `v` and writes the flags `own`: `v`
under ARITH_FLAGS = none; under havoc those of minus, zero and carry not in `own` are free (R31, U8; log 31). -/
def arithFlagsByte (p : Params) (s : State) (own : List Flag) (v : Byte) : Byte :=
  match p.arithFlags with
  | .none => v
  | .havoc =>
    ([Flag.minus, Flag.zero, Flag.carry].filter (fun f => !own.contains f)).foldl
      (flagFrom p.flagBit (freeFlags s.freeIndex)) v

/-- The write of the flags cell that ARITH_FLAGS adds to an instruction whose own rule writes no flag (R31): none
under the default. UNVERIFIED (log 8): the default is the spec's D8. -/
def arithFlagWrites (p : Params) (s : State) : List Write :=
  match p.arithFlags with
  | .none => []
  | .havoc => [(regAddr .flags, arithFlagsByte p s [] s.flags)]

/-- Counts the free value an instruction has drawn (log 31). -/
def State.draw (p : Params) (s : State) : State :=
  match p.arithFlags with
  | .none => s
  | .havoc => { s with freeIndex := s.freeIndex + 1 }

/-- Ends an arithmetic instruction whose own rule writes no flag (R31, R36). -/
def State.commitArith (p : Params) (s : State) (ws : List Write) : Result :=
  (s.draw p).commit p (ws ++ arithFlagWrites p s)

end Sys2Proof.Machine
end

