-- ==== Sys2Proof/Machine/Branch.lean ====
section
/-! DEFINITION. The sixteen conditional branches (R190, R191). -/

namespace Sys2Proof.Machine

open Sys2Proof.Config

/-- Jumps to the absolute code address `d` if the test holds, else writes nothing (R190). -/
def branchOp (p : Params) (inv : Bool) (c : Cond) (d : Byte) (s : State) : Result :=
  s.read p (regAddr .flags) fun f =>
    s.commit p (if branchTest p.flagBit f inv c then [(regAddr .pc, d)] else [])

/-- blt: taken when `minus == 1 && zero == 0` (R191). -/
def execBlt (d : Byte) (s : State) : Result := branchOp params false .lt d s

/-- bgt: taken when `minus == 0 && zero == 0` (R191). -/
def execBgt (d : Byte) (s : State) : Result := branchOp params false .gt d s

/-- beq: taken when `zero == 1` (R191). -/
def execBeq (d : Byte) (s : State) : Result := branchOp params false .eq d s

/-- bca: taken when `carry == 1` (R191). -/
def execBca (d : Byte) (s : State) : Result := branchOp params false .ca d s

/-- bmi: taken when `minus == 1` (R191). -/
def execBmi (d : Byte) (s : State) : Result := branchOp params false .mi d s

/-- bxt1: taken when `xtra1 == 1` (R191). -/
def execBxt1 (d : Byte) (s : State) : Result := branchOp params false .xt1 d s

/-- bxt2: taken when `xtra2 == 1` (R191). -/
def execBxt2 (d : Byte) (s : State) : Result := branchOp params false .xt2 d s

/-- bxt3: taken when `xtra3 == 1` (R191). -/
def execBxt3 (d : Byte) (s : State) : Result := branchOp params false .xt3 d s

/-- bgte: taken when `!(minus == 1 && zero == 0)` (R191). -/
def execBgte (d : Byte) (s : State) : Result := branchOp params true .lt d s

/-- blte: taken when `!(minus == 0 && zero == 0)` (R191). -/
def execBlte (d : Byte) (s : State) : Result := branchOp params true .gt d s

/-- bne: taken when `!(zero == 1)` (R191). -/
def execBne (d : Byte) (s : State) : Result := branchOp params true .eq d s

/-- bnc: taken when `!(carry == 1)` (R191). -/
def execBnc (d : Byte) (s : State) : Result := branchOp params true .ca d s

/-- bnm: taken when `!(minus == 1)` (R191). -/
def execBnm (d : Byte) (s : State) : Result := branchOp params true .mi d s

/-- bnx1: taken when `!(xtra1 == 1)` (R191). -/
def execBnx1 (d : Byte) (s : State) : Result := branchOp params true .xt1 d s

/-- bnx2: taken when `!(xtra2 == 1)` (R191). -/
def execBnx2 (d : Byte) (s : State) : Result := branchOp params true .xt2 d s

/-- bnx3: taken when `!(xtra3 == 1)` (R191). -/
def execBnx3 (d : Byte) (s : State) : Result := branchOp params true .xt3 d s

end Sys2Proof.Machine
end

