-- ==== Sys2Proof/Machine/Cmp.lean ====
section
/-! DEFINITION. cmp (R180). -/

namespace Sys2Proof.Machine

open Sys2Proof.Config

/-- Compares `x[b]` with the source and writes zero and minus (R180). -/
def cmpOp (p : Params) (b : GReg) (src : Src) (s : State) : Result :=
  s.read p (gAddr b) fun a => s.withSrc p src fun v => s.read p (regAddr .flags) fun f =>
    s.commit p [(regAddr .flags, cmpFlags p f a v)]

/-- cmp (R180). -/
def execCmp (b : GReg) (src : Src) (s : State) : Result := cmpOp params b src s

end Sys2Proof.Machine
end

