-- ==== Sys2Proof/Machine/Alu.lean ====
section
/-! DEFINITION. What the arithmetic units compute on 8-bit values: shifts and rotates (R151 to R156), the loop test
(R200) and the product (R205). -/

namespace Sys2Proof.Machine

open Sys2Proof.Config

/-- `(v << n) mod 256` (R151). -/
def shl (v : Byte) (n : Nat) : Byte := v <<< n

/-- `v >> n`, filled at the top with zeros or with the old bit 7 (R152; UNVERIFIED, log 11). -/
def shr (fill : ShrFill) (v : Byte) (n : Nat) : Byte :=
  match fill with
  | .zero => v >>> n
  | .sign => v.sshiftRight n

/-- `v` rotated left by `n mod 8` (R150, R153). -/
def rol (v : Byte) (n : Nat) : Byte := (v <<< (n % 8)) ||| (v >>> (8 - n % 8))

/-- `v` rotated right by `n mod 8` (R150, R154). -/
def ror (v : Byte) (n : Nat) : Byte := (v >>> (n % 8)) ||| (v <<< (8 - n % 8))

/-- `((v << 1) | c) mod 256` (R155). -/
def rolcByte (v : Byte) (c : Bool) : Byte := (v <<< 1) ||| (BitVec.ofBool c).zeroExtend 8

/-- `(v >> 1) | (c << 7)` (R156). -/
def rorcByte (v : Byte) (c : Bool) : Byte := (v >>> 1) ||| ((BitVec.ofBool c).zeroExtend 8 <<< 7)

/-- Whether loop jumps, from the register's value before the decrement (R200). UNVERIFIED (log 16): the default
setting is the spec's D16. -/
def loopJumps (t : LoopTest) (a : Byte) : Bool :=
  match t with
  | .postNonzero => decide (a - 1 ≠ 0)
  | .preNonzero => decide (a ≠ 0)
  | .preZero => decide (a = 0)

/-- The exact 16-bit product: of the values 0 to 255, or of the two's-complement values (R205; UNVERIFIED that both
operands are signed, log 15). -/
def product (signed : Bool) (a m : Byte) : Word :=
  if signed then BitVec.ofInt 16 (a.toInt * m.toInt) else BitVec.ofNat 16 (a.toNat * m.toNat)

end Sys2Proof.Machine
end

