-- ==== Sys2Proof/Machine/Loop.lean ====
section
/-! DEFINITION. loop (R200). -/

namespace Sys2Proof.Machine

open Sys2Proof.Config

/-- Decrements `x[b]` and jumps to the source by LOOP_TEST; the target is read before the decrement (R200). -/
def loopOp (p : Params) (b : GReg) (src : Src) (s : State) : Result :=
  s.read p (gAddr b) fun a => s.withSrc p src fun t =>
    s.commitArith p ((gAddr b, a - 1) :: if loopJumps p.loopTest a then [(regAddr .pc, t)] else [])

/-- loop (R200). -/
def execLoop (b : GReg) (src : Src) (s : State) : Result := loopOp params b src s

end Sys2Proof.Machine
end

