-- ==== Sys2Proof/Machine/Math.lean ====
section
/-! DEFINITION. The math family: add, sub, and, or, xor (R130 to R135). -/

namespace Sys2Proof.Machine

open Sys2Proof.Config

/-- `x[b] <- f(x[b], src)`, both operands read first (R130). -/
def mathOp (p : Params) (f : Byte → Byte → Byte) (b : GReg) (src : Src) (s : State) : Result :=
  s.read p (gAddr b) fun a => s.withSrc p src fun v => s.commitArith p [(gAddr b, f a v)]

/-- add (R131): wraps modulo 256. -/
def execAdd (b : GReg) (src : Src) (s : State) : Result := mathOp params (fun a v => a + v) b src s

/-- sub (R132): target minus source, wraps modulo 256. -/
def execSub (b : GReg) (src : Src) (s : State) : Result := mathOp params (fun a v => a - v) b src s

/-- and (R133). -/
def execAnd (b : GReg) (src : Src) (s : State) : Result := mathOp params (fun a v => a &&& v) b src s

/-- or (R134). -/
def execOr (b : GReg) (src : Src) (s : State) : Result := mathOp params (fun a v => a ||| v) b src s

/-- xor (R135). -/
def execXor (b : GReg) (src : Src) (s : State) : Result := mathOp params (fun a v => a ^^^ v) b src s

end Sys2Proof.Machine
end

