-- ==== Sys2Proof/Machine/Mov.lean ====
section
/-! DEFINITION. The mov family: load0, store0, load1, store1 (R110 to R113). -/

namespace Sys2Proof.Machine

open Sys2Proof.Config

/-- `x[r] <- src` (R110, R112). A write of pc is a jump (R35). -/
def loadOp (p : Params) (r : Reg) (src : Src) (s : State) : Result :=
  s.withSrc p src fun v => s.commit p [(regAddr r, v)]

/-- `MemWrite(ea, 1, x[r])` (R111, R113). -/
def storeOp (p : Params) (r : Reg) (dst : Loc) (s : State) : Result :=
  s.withEa p dst fun a => s.read p (regAddr r) fun v => s.commit p [(a, v)]

/-- load0 (R110). -/
def execLoad0 (b : GReg) (src : Src) (s : State) : Result := loadOp params (gRegReg b) src s

/-- store0 with source type 01, 10 or 11 (R111). -/
def execStore0 (b : GReg) (dst : Loc) (s : State) : Result := storeOp params (gRegReg b) dst s

/-- store0 with `cc = 00`: reserved (R93 (1), R111, U1). -/
def execStore0Reserved (b : GReg) (d : Byte) (s : State) : Result :=
  s.reservedStop params (encode (.store0Reserved b d))

/-- load1 (R112). -/
def execLoad1 (x : SReg) (src : Src) (s : State) : Result := loadOp params (sRegReg x) src s

/-- store1 with source type 01, 10 or 11 (R113). -/
def execStore1 (x : SReg) (dst : Loc) (s : State) : Result := storeOp params (sRegReg x) dst s

/-- store1 with `cc = 00`: reserved (R93 (2), R113, U2). -/
def execStore1Reserved (x : SReg) (d : Byte) (s : State) : Result :=
  s.reservedStop params (encode (.store1Reserved x d))

end Sys2Proof.Machine
end

