-- ==== Sys2Proof/Machine/Mul.lean ====
section
/-! DEFINITION. mul, both forms, and its reserved row (R205). -/

namespace Sys2Proof.Machine

open Sys2Proof.Config

/-- Ends a multiply: the 16-bit product goes to r0:r1 (R205). -/
def mulOp (p : Params) (sg : Bool) (a m : Byte) (s : State) : Result :=
  s.commitArith p (pairWrites p (product sg a m))

/-- mul with the constant multiplier `e`, `sel = 1` (R205). -/
def execMulConst (sg : Bool) (ms : GReg) (e : Byte) (s : State) : Result :=
  s.read params (gAddr ms) fun a => mulOp params sg a e s

/-- mul with a register multiplier, `sel = 0` and `e[7:3] = 0` (R205). -/
def execMulReg (sg : Bool) (ms : GReg) (r : Reg) (s : State) : Result :=
  s.read params (gAddr ms) fun a => s.read params (regAddr r) fun m => mulOp params sg a m s

/-- mul with a register index above 7: reserved (R93 (5), U5). -/
def execMulReserved (sg : Bool) (ms : GReg) (e : Byte) (s : State) : Result :=
  s.reservedStop params (encode (.mulReserved sg ms e))

end Sys2Proof.Machine
end

