-- ==== Sys2Proof/Machine/SetFlags.lean ====
section
/-! DEFINITION. setflags (R185). -/

namespace Sys2Proof.Machine

open Sys2Proof.Config

/-- Each flag whose mask bit is 1 takes its bit of `val`; bits 7:6 stay (R185). -/
def setflagsOp (p : Params) (mask val : BitVec 6) (s : State) : Result :=
  s.read p (regAddr .flags) fun f => s.commit p [(regAddr .flags, setflagsByte f mask val)]

/-- setflags (R185). -/
def execSetflags (mask val : BitVec 6) (s : State) : Result := setflagsOp params mask val s

end Sys2Proof.Machine
end

