-- ==== Sys2Proof/Machine/Swap.lean ====
section
/-! DEFINITION. swap (R145). -/

namespace Sys2Proof.Machine

open Sys2Proof.Config

/-- Exchanges `x[b]` and a data cell: both reads, then the cell's write, then the register's (R145, R37). -/
def swapOp (p : Params) (b : GReg) (dst : Loc) (s : State) : Result :=
  s.withEa p dst fun a =>
    s.read p (gAddr b) fun v => s.read p a fun m => s.commit p [(a, v), (gAddr b, m)]

/-- swap with source type 01, 10 or 11 (R145). -/
def execSwap (b : GReg) (dst : Loc) (s : State) : Result := swapOp params b dst s

/-- swap with `cc = 00`: reserved (R93 (3), R145, U3). -/
def execSwapReserved (b : GReg) (d : Byte) (s : State) : Result :=
  s.reservedStop params (encode (.swapReserved b d))

end Sys2Proof.Machine
end

