-- ==== Sys2Proof/Machine/Unary.lean ====
section
/-! DEFINITION. The unary family, opcode 12 (R150 to R165). -/

namespace Sys2Proof.Machine

open Sys2Proof.Config

/-- `x[b] <- f(x[b], n)` with the count from the argument (R150 to R154). -/
def shiftOp (p : Params) (f : Byte → Nat → Byte) (b : GReg) (n : Count) (s : State) : Result :=
  s.read p (gAddr b) fun v => s.withCount p n fun k => s.commitArith p [(gAddr b, f v k)]

/-- `x[b] <- f(x[b], n)` with the count from cr (R150, R158 to R161). -/
def shiftCrOp (p : Params) (f : Byte → Nat → Byte) (b : GReg) (s : State) : Result :=
  s.read p (gAddr b) fun v => s.withCrCount p fun k => s.commitArith p [(gAddr b, f v k)]

/-- A rotate through carry: `f` gives the register and `out` the new carry (R155, R156). Carry is written by the
rule itself, so ARITH_FLAGS = havoc leaves it (R31). UNVERIFIED (log 12): D12. -/
def rotateCarryOp (p : Params) (f : Byte → Bool → Byte) (out : Byte → Bool) (b : GReg) (s : State) : Result :=
  s.read p (gAddr b) fun v => s.read p (regAddr .flags) fun fl =>
    (s.draw p).commit p
      [(gAddr b, f v (flagOf p.flagBit fl .carry)),
       (regAddr .flags, arithFlagsByte p s [.carry] (withFlag p.flagBit fl .carry (out v)))]

/-- `x[b] <- f(x[b], flag(g))` (R162, R163). UNVERIFIED (log 13): that the flag is not written is D13. -/
def flagArithOp (p : Params) (f : Byte → Byte → Byte) (g : Flag) (b : GReg) (s : State) : Result :=
  s.read p (gAddr b) fun v => s.read p (regAddr .flags) fun fl =>
    s.commitArith p [(gAddr b, f v (if flagOf p.flagBit fl g then 1 else 0))]

/-- shl.n (R151). -/
def execShlN (b : GReg) (n : Count) (s : State) : Result := shiftOp params shl b n s

/-- shr.n (R152). -/
def execShrN (b : GReg) (n : Count) (s : State) : Result := shiftOp params (shr params.shrFill) b n s

/-- rol.n (R153). -/
def execRolN (b : GReg) (n : Count) (s : State) : Result := shiftOp params rol b n s

/-- ror.n (R154). -/
def execRorN (b : GReg) (n : Count) (s : State) : Result := shiftOp params ror b n s

/-- rolc (R155): the old carry enters bit 0, the old bit 7 becomes carry. -/
def execRolc (b : GReg) (s : State) : Result := rotateCarryOp params rolcByte (fun v => v.getLsbD 7) b s

/-- rorc (R156): the old carry enters bit 7, the old bit 0 becomes carry. -/
def execRorc (b : GReg) (s : State) : Result := rotateCarryOp params rorcByte (fun v => v.getLsbD 0) b s

/-- Sub-op 0110: unused, reserved (R93 (4), R157, U4). -/
def execUnary6Reserved (b : GReg) (xx : BitVec 2) (arg : BitVec 4) (s : State) : Result :=
  s.reservedStop params (encode (.unary6Reserved b xx arg))

/-- Sub-op 0111: unused, reserved (R93 (4), R157, U4). -/
def execUnary7Reserved (b : GReg) (xx : BitVec 2) (arg : BitVec 4) (s : State) : Result :=
  s.reservedStop params (encode (.unary7Reserved b xx arg))

/-- shl.cr (R158). -/
def execShlCr (b : GReg) (s : State) : Result := shiftCrOp params shl b s

/-- shr.cr (R159). -/
def execShrCr (b : GReg) (s : State) : Result := shiftCrOp params (shr params.shrFill) b s

/-- rol.cr (R160). -/
def execRolCr (b : GReg) (s : State) : Result := shiftCrOp params rol b s

/-- ror.cr (R161). -/
def execRorCr (b : GReg) (s : State) : Result := shiftCrOp params ror b s

/-- adc (R162): adds 1 if carry is set. -/
def execAdc (b : GReg) (s : State) : Result := flagArithOp params (fun v c => v + c) .carry b s

/-- sbm (R163): subtracts 1 if minus is set. -/
def execSbm (b : GReg) (s : State) : Result := flagArithOp params (fun v m => v - m) .minus b s

/-- neg (R164): `(0 - v) mod 256`. -/
def execNeg (b : GReg) (s : State) : Result :=
  s.read params (gAddr b) fun v => s.commitArith params [(gAddr b, 0 - v)]

/-- Loads a code cell, by default the one at the address in `x[b]`, into r0:r1 (R165). -/
def loadroOp (p : Params) (b : GReg) (s : State) : Result :=
  s.withLoadroWord p b fun t w => t.commitArith p (pairWrites p w)

/-- loadro (R165). -/
def execLoadro (b : GReg) (s : State) : Result := loadroOp params b s

end Sys2Proof.Machine
end

