-- ==== Sys2Proof/Machine/Dispatch.lean ====
section
/-! DEFINITION. The meaning of every instruction: one arm per constructor of Instr, each one direct call. -/

namespace Sys2Proof.Machine

def exec (i : Instr) (s : State) : Host.Outcome State Fault Refusal :=
  match i with
  | .load0 b src => Sys2Proof.Machine.execLoad0 b src s
  | .store0 b dst => Sys2Proof.Machine.execStore0 b dst s
  | .store0Reserved b d => Sys2Proof.Machine.execStore0Reserved b d s
  | .add b src => Sys2Proof.Machine.execAdd b src s
  | .sub b src => Sys2Proof.Machine.execSub b src s
  | .and b src => Sys2Proof.Machine.execAnd b src s
  | .or b src => Sys2Proof.Machine.execOr b src s
  | .xor b src => Sys2Proof.Machine.execXor b src s
  | .cmp b src => Sys2Proof.Machine.execCmp b src s
  | .load1 x src => Sys2Proof.Machine.execLoad1 x src s
  | .store1 x dst => Sys2Proof.Machine.execStore1 x dst s
  | .store1Reserved x d => Sys2Proof.Machine.execStore1Reserved x d s
  | .swap b dst => Sys2Proof.Machine.execSwap b dst s
  | .swapReserved b d => Sys2Proof.Machine.execSwapReserved b d s
  | .loop b src => Sys2Proof.Machine.execLoop b src s
  | .shlN b n => Sys2Proof.Machine.execShlN b n s
  | .shrN b n => Sys2Proof.Machine.execShrN b n s
  | .rolN b n => Sys2Proof.Machine.execRolN b n s
  | .rorN b n => Sys2Proof.Machine.execRorN b n s
  | .rolc b => Sys2Proof.Machine.execRolc b s
  | .rorc b => Sys2Proof.Machine.execRorc b s
  | .unary6Reserved b xx arg => Sys2Proof.Machine.execUnary6Reserved b xx arg s
  | .unary7Reserved b xx arg => Sys2Proof.Machine.execUnary7Reserved b xx arg s
  | .shlCr b => Sys2Proof.Machine.execShlCr b s
  | .shrCr b => Sys2Proof.Machine.execShrCr b s
  | .rolCr b => Sys2Proof.Machine.execRolCr b s
  | .rorCr b => Sys2Proof.Machine.execRorCr b s
  | .adc b => Sys2Proof.Machine.execAdc b s
  | .sbm b => Sys2Proof.Machine.execSbm b s
  | .neg b => Sys2Proof.Machine.execNeg b s
  | .loadro b => Sys2Proof.Machine.execLoadro b s
  | .setflags mask val => Sys2Proof.Machine.execSetflags mask val s
  | .blt d => Sys2Proof.Machine.execBlt d s
  | .bgt d => Sys2Proof.Machine.execBgt d s
  | .beq d => Sys2Proof.Machine.execBeq d s
  | .bca d => Sys2Proof.Machine.execBca d s
  | .bmi d => Sys2Proof.Machine.execBmi d s
  | .bxt1 d => Sys2Proof.Machine.execBxt1 d s
  | .bxt2 d => Sys2Proof.Machine.execBxt2 d s
  | .bxt3 d => Sys2Proof.Machine.execBxt3 d s
  | .bgte d => Sys2Proof.Machine.execBgte d s
  | .blte d => Sys2Proof.Machine.execBlte d s
  | .bne d => Sys2Proof.Machine.execBne d s
  | .bnc d => Sys2Proof.Machine.execBnc d s
  | .bnm d => Sys2Proof.Machine.execBnm d s
  | .bnx1 d => Sys2Proof.Machine.execBnx1 d s
  | .bnx2 d => Sys2Proof.Machine.execBnx2 d s
  | .bnx3 d => Sys2Proof.Machine.execBnx3 d s
  | .mulConst sg ms e => Sys2Proof.Machine.execMulConst sg ms e s
  | .mulReg sg ms r => Sys2Proof.Machine.execMulReg sg ms r s
  | .mulReserved sg ms e => Sys2Proof.Machine.execMulReserved sg ms e s

end Sys2Proof.Machine
end

