-- ==== Sys2Proof/Machine/Step.lean ====
section
/-! DEFINITION. One step (R36), and where the host places an instruction for it. -/

namespace Sys2Proof.Machine

/-- One step: fetch the word at pc, decode it, execute it (R36). The writes and the advance of pc are part of every
instruction's meaning, State.commit. -/
def step (s : State) : Host.Outcome State Fault Refusal :=
  s.fetchDecode params fun i => exec i s

/-- `s` with the instruction of `nbits` bits `w` in the code cell that the next step fetches (log 24). -/
def State.withFetchWord (s : State) (nbits w : Nat) : State :=
  s.setCodeCell s.pc (BitVec.ofNat 16 (w % 2 ^ nbits))

end Sys2Proof.Machine
end

