-- ==== Sys2Proof/Machine/Assembler.lean ====
section
/-! DEFINITION. What an assembler line stands for: the mnemonics, operand forms and special forms of the source's
assembler section, each as the machine instructions it assembles to (R96 to R100, R114 to R120, R136, R166, R186).
Lexical syntax is out of scope (R4 (d)); labels are numbers here (R97). -/

namespace Sys2Proof.Machine

open Sys2Proof.Config

/-- An operand as the assembler writes it (R97). -/
inductive AsmOperand where
  /-- `constant` or `label` -/
  | const (d : Byte)
  /-- `[constant]` or `[label]` -/
  | at (d : Byte)
  /-- `[r0+constant]`; `[r0]` is `[r0+0]` -/
  | r0Rel (d : Byte)
  /-- `[r1+constant]`; `[r1]` is `[r1+0]` -/
  | r1Rel (d : Byte)
  /-- a register name -/
  | reg (r : Reg)
  deriving DecidableEq, Repr

/-- An operand of swap and of a store: every form but a constant (R115, R145). -/
inductive AsmCell where
  | at (d : Byte)
  | r0Rel (d : Byte)
  | r1Rel (d : Byte)
  | reg (r : Reg)
  deriving DecidableEq, Repr

/-- The eight mnemonics of `(shl|shr|rol|rolc|ror|rorc|neg|swapn) rX` (R166). -/
inductive UnaryName where
  | shl
  | shr
  | rol
  | rolc
  | ror
  | rorc
  | neg
  | swapn
  deriving DecidableEq, Repr

/-- The four mnemonics of `(shl|shr|rol|ror) rX, cr` (R166). -/
inductive CrShiftName where
  | shl
  | shr
  | rol
  | ror
  deriving DecidableEq, Repr

/-- The five math mnemonics (R130). -/
inductive MathName where
  | add
  | sub
  | and
  | or
  | xor
  deriving DecidableEq, Repr

/-- One assembler line (R100). -/
inductive AsmLine where
  /-- `mov (r0-r4,flags,pc,lr), source` (R114) -/
  | movLoad (dst : Reg) (src : AsmOperand)
  /-- `mov (constant-store|r0-relative|r1-relative), (r0-r3)` (R115) -/
  | movStore (dst : Loc) (src : GReg)
  /-- `mov lr, pc` (R120) -/
  | movLrPc
  | ret
  | bsub (dst : Byte)
  /-- `bra dst`, with any mov source (R118) -/
  | bra (dst : AsmOperand)
  | halt
  | math (op : MathName) (x : GReg) (src : AsmOperand)
  | inc (x : GReg)
  | dec (x : GReg)
  | not (x : GReg)
  | swap (x : GReg) (cell : AsmCell)
  | unary (op : UnaryName) (x : GReg)
  | shiftCr (op : CrShiftName) (x : GReg)
  | cmp (x : GReg) (src : AsmOperand)
  /-- `setflags mask, values`, each a 6-bit pattern -/
  | setflags (mask val : BitVec 6)
  | setc
  | clc
  | setz
  | clz
  /-- `b<cond> constant` (R190) -/
  | branch (inv : Bool) (c : Cond) (d : Byte)
  /-- `loop (r0-r3), (constant|constant-load|r0-relative|r1-relative)` (R200) -/
  | loop (x : GReg) (src : Src)
  /-- an instruction written with its machine mnemonic and fields, which the source gives no syntax (R100) -/
  | machine (i : Instr)
  deriving DecidableEq, Repr

/-- The source an operand assembles to; a register name is source type 01 at its address (R97, R98). -/
def asmSrc : AsmOperand → Src
  | .const d => .const d
  | .at d => .cell (.abs d)
  | .r0Rel d => .cell (.r0Rel d)
  | .r1Rel d => .cell (.r1Rel d)
  | .reg r => .cell (.abs (regAddr r))

/-- The source of `mov dst, src` at code address `a`: pc as the source of `mov lr, pc` and of `mov pc, pc` is the
instruction's own address, and no read of pc (R97's last row, R119, R120); else as asmSrc. -/
def asmMovSrc (a : Byte) (dst : Reg) (src : AsmOperand) : Src :=
  match dst, src with
  | .lr, .reg .pc => .const a
  | .pc, .reg .pc => .const a
  | _, src => asmSrc src

/-- The data cell an operand assembles to (R97, R98). -/
def asmLoc : AsmCell → Loc
  | .at d => .abs d
  | .r0Rel d => .r0Rel d
  | .r1Rel d => .r1Rel d
  | .reg r => .abs (regAddr r)

/-- `mov r, src` as a load: load0 for r0 to r3, load1 for the others (R98, R114). -/
def asmLoad (r : Reg) (src : Src) : Instr :=
  match r with
  | .r0 => .load0 .r0 src
  | .r1 => .load0 .r1 src
  | .r2 => .load0 .r2 src
  | .r3 => .load0 .r3 src
  | .cr => .load1 .cr src
  | .flags => .load1 .flags src
  | .pc => .load1 .pc src
  | .lr => .load1 .lr src

/-- A math mnemonic (R130). -/
def asmMath (op : MathName) (x : GReg) (src : Src) : Instr :=
  match op with
  | .add => .add x src
  | .sub => .sub x src
  | .and => .and x src
  | .or => .or x src
  | .xor => .xor x src

/-- `op rX` (R166). UNVERIFIED (log 28): a bare shift has count 1 and swapn is rol.n by 4 (D24). -/
def asmUnary (op : UnaryName) (x : GReg) : Instr :=
  match op with
  | .shl => .shlN x (.imm 1)
  | .shr => .shrN x (.imm 1)
  | .rol => .rolN x (.imm 1)
  | .rolc => .rolc x
  | .ror => .rorN x (.imm 1)
  | .rorc => .rorc x
  | .neg => .neg x
  | .swapn => .rolN x (.imm 4)

/-- `op rX, cr` (R166). -/
def asmShiftCr (op : CrShiftName) (x : GReg) : Instr :=
  match op with
  | .shl => .shlCr x
  | .shr => .shrCr x
  | .rol => .rolCr x
  | .ror => .rorCr x

/-- `b<cond> d` (R87, R190). -/
def asmBranch (inv : Bool) (c : Cond) (d : Byte) : Instr :=
  match inv, c with
  | false, .lt => .blt d
  | false, .gt => .bgt d
  | false, .eq => .beq d
  | false, .ca => .bca d
  | false, .mi => .bmi d
  | false, .xt1 => .bxt1 d
  | false, .xt2 => .bxt2 d
  | false, .xt3 => .bxt3 d
  | true, .lt => .bgte d
  | true, .gt => .blte d
  | true, .eq => .bne d
  | true, .ca => .bnc d
  | true, .mi => .bnm d
  | true, .xt1 => .bnx1 d
  | true, .xt2 => .bnx2 d
  | true, .xt3 => .bnx3 d

/-- The 6-bit setflags pattern with only flag `f` set: the operand names `ca` and `eq` (R186). -/
def flagPattern (l : FlagLayout) (f : Flag) : BitVec 6 := (flagMask l f).truncate 6

/-- The instructions a line at code address `a` assembles to (R99, R100). UNVERIFIED (log 27): the constants of
`bsub` and `mov lr, pc` are the spec's D23. -/
def assemble (p : Params) (a : Byte) : AsmLine → List Instr
  | .movLoad dst src => [asmLoad dst (asmMovSrc a dst src)]
  | .movStore dst src => [.store0 src dst]
  | .movLrPc => [asmLoad .lr (asmMovSrc a .lr (.reg .pc))]
  | .ret => [.load1 .pc (.cell (.abs (regAddr .lr)))]
  | .bsub dst => [.load1 .lr (.const (a + 2)), .load1 .pc (.const dst)]
  | .bra dst => [asmLoad .pc (asmMovSrc a .pc dst)]
  | .halt => [asmLoad .pc (asmMovSrc a .pc (.reg .pc))]
  | .math op x src => [asmMath op x (asmSrc src)]
  | .inc x => [.add x (.const 1)]
  | .dec x => [.sub x (.const 1)]
  | .not x => [.xor x (.const 255)]
  | .swap x cell => [.swap x (asmLoc cell)]
  | .unary op x => [asmUnary op x]
  | .shiftCr op x => [asmShiftCr op x]
  | .cmp x src => [.cmp x (asmSrc src)]
  | .setflags mask val => [.setflags mask val]
  | .setc => [.setflags (flagPattern p.flagBit .carry) (flagPattern p.flagBit .carry)]
  | .clc => [.setflags (flagPattern p.flagBit .carry) 0]
  | .setz => [.setflags (flagPattern p.flagBit .zero) (flagPattern p.flagBit .zero)]
  | .clz => [.setflags (flagPattern p.flagBit .zero) 0]
  | .branch inv c d => [asmBranch inv c d]
  | .loop x src => [.loop x src]
  | .machine i => [i]

end Sys2Proof.Machine
end

