-- ==== Sys2Proof/Machine/Run.lean ====
section
/-! DEFINITION. The end of a run (R255, D22): running up to the first halted state, or to a fault, within a number of
steps. The machine itself never stops; the relations claims are said in stand in Sys2Proof/Safety.lean. -/

namespace Sys2Proof.Machine

/-- Whether the next step leaves the state as it is, so that it is halted (R255). -/
def State.isHalted (s : State) : Bool :=
  match step s with
  | .next t => decide (t = s)
  | _ => false

/-- How far a run has come (R255). -/
inductive RunEnd where
  /-- The first halted state: its data space is the result of the run. -/
  | halted (s : State)
  /-- A step faulted: the run has no result (R221). -/
  | fault (f : Fault)
  /-- A step was refused. With the default parameters no run ends so. -/
  | refused (r : Refusal)
  /-- Not over yet; a run that is always here does not terminate. -/
  | running (s : State)
  deriving DecidableEq, Repr

/-- The run from `s` for at most `n` steps, ended at the first halted state (R255). -/
def runEnd : Nat → State → RunEnd
  | 0, s => if s.isHalted then .halted s else .running s
  | n + 1, s =>
    if s.isHalted then .halted s
    else
      match step s with
      | .next t => runEnd n t
      | .fault f => .fault f
      | .refused r => .refused r

end Sys2Proof.Machine
end

