-- ==== Sys2Proof/Safety.lean ====
section
/-! DEFINITION. What claims about the machine are said in: canonical, launched and halted states, the end of a run, what
an instruction may write, and what stays the same between two states. -/

namespace Sys2Proof.Safety

open Sys2Proof.Machine

/-- Every data cell and code cell is in canonical form (State.wf). -/
def Canonical (s : State) : Prop := s.wf = true

/-- A launch premise (R42, R250, R251; log 24): pc at RESET_PC, a canonical image, and ANY value in every other
register, since the spec gives none a reset value (U12). -/
def Launched (s : State) : Prop := s.pc = params.resetPc ∧ Canonical s

/-- The same data space but for the listed cells, the same code space, and no free value drawn. -/
def SameBut (cells : List Byte) (s t : State) : Prop :=
  (∀ a : Byte, a ∉ cells → t.cell a = s.cell a) ∧ t.code = s.code ∧ t.freeIndex = s.freeIndex

/-- `i` in state `s` schedules a write of cell 0x06 (R35). -/
def WritesPc (i : Instr) (s : State) : Prop :=
  match i with
  | .load1 x _ => x = .pc
  | .store0 _ l | .store1 _ l | .swap _ l => s.ea params l = regAddr .pc
  | .loop b _ => loopJumps params.loopTest (s.cell (gAddr b)) = true
  | .blt _ => branchTest params.flagBit s.flags false .lt = true
  | .bgt _ => branchTest params.flagBit s.flags false .gt = true
  | .beq _ => branchTest params.flagBit s.flags false .eq = true
  | .bca _ => branchTest params.flagBit s.flags false .ca = true
  | .bmi _ => branchTest params.flagBit s.flags false .mi = true
  | .bxt1 _ => branchTest params.flagBit s.flags false .xt1 = true
  | .bxt2 _ => branchTest params.flagBit s.flags false .xt2 = true
  | .bxt3 _ => branchTest params.flagBit s.flags false .xt3 = true
  | .bgte _ => branchTest params.flagBit s.flags true .lt = true
  | .blte _ => branchTest params.flagBit s.flags true .gt = true
  | .bne _ => branchTest params.flagBit s.flags true .eq = true
  | .bnc _ => branchTest params.flagBit s.flags true .ca = true
  | .bnm _ => branchTest params.flagBit s.flags true .mi = true
  | .bnx1 _ => branchTest params.flagBit s.flags true .xt1 = true
  | .bnx2 _ => branchTest params.flagBit s.flags true .xt2 = true
  | .bnx3 _ => branchTest params.flagBit s.flags true .xt3 = true
  | _ => False

/-- The data cells other than pc that `i` may write in state `s` (R31, R39, R50 with log 32). -/
def writableCells (i : Instr) (s : State) : List Byte :=
  match i with
  | .load0 b _ => [gAddr b]
  | .load1 x _ => [sAddr x]
  | .store0 _ l | .store1 _ l => [s.ea params l]
  | .swap b l => [gAddr b, s.ea params l]
  | .add b _ | .sub b _ | .and b _ | .or b _ | .xor b _ | .loop b _ => [gAddr b]
  | .shlN b _ | .shrN b _ | .rolN b _ | .rorN b _ => [gAddr b]
  | .shlCr b | .shrCr b | .rolCr b | .rorCr b | .adc b | .sbm b | .neg b => [gAddr b]
  | .rolc b | .rorc b => [gAddr b, regAddr .flags]
  | .cmp _ _ | .setflags _ _ => [regAddr .flags]
  | .loadro _ | .mulConst _ _ _ | .mulReg _ _ _ => [regAddr .r0, regAddr .r1]
  | _ => []

/-- The cells an operand in a data cell reads to form its address (R81). -/
def baseCells : Loc → List Byte
  | .abs _ => []
  | .r0Rel _ => [regAddr .r0]
  | .r1Rel _ => [regAddr .r1]

/-- The cells a format A source reads (R81). -/
def srcCells (s : State) : Src → List Byte
  | .const _ => []
  | .cell l => s.ea params l :: baseCells l

/-- The cells the count of a `.n` shift reads (R150). -/
def countCells : Count → List Byte
  | .imm _ => []
  | .reg r => [gAddr r]

/-- The data cells other than pc that `i` reads in state `s` (R32, R39, R52). -/
def readCells (i : Instr) (s : State) : List Byte :=
  match i with
  | .load0 _ src | .load1 _ src => srcCells s src
  | .store0 b l => gAddr b :: baseCells l
  | .store1 x l => sAddr x :: baseCells l
  | .swap b l => gAddr b :: s.ea params l :: baseCells l
  | .add b src | .sub b src | .and b src | .or b src | .xor b src | .loop b src => gAddr b :: srcCells s src
  | .cmp b src => regAddr .flags :: gAddr b :: srcCells s src
  | .shlN b n | .shrN b n | .rolN b n | .rorN b n => gAddr b :: countCells n
  | .shlCr b | .shrCr b | .rolCr b | .rorCr b => [gAddr b, regAddr .cr]
  | .rolc b | .rorc b | .adc b | .sbm b => [gAddr b, regAddr .flags]
  | .neg b | .loadro b => [gAddr b]
  | .mulConst _ ms _ => [gAddr ms]
  | .mulReg _ ms r => [gAddr ms, regAddr r]
  | .setflags _ _ => [regAddr .flags]
  | .blt _ | .bgt _ | .beq _ | .bca _ | .bmi _ | .bxt1 _ | .bxt2 _ | .bxt3 _ => [regAddr .flags]
  | .bgte _ | .blte _ | .bne _ | .bnc _ | .bnm _ | .bnx1 _ | .bnx2 _ | .bnx3 _ => [regAddr .flags]
  | _ => []

/-- The instructions of opcodes 2 to 6, 11, 12 and 15 whose own rule writes no flag: those whose flags
ARITH_FLAGS is about, less rolc and rorc (R31). -/
def arithWritesNoFlag : Instr → Bool
  | .add _ _ | .sub _ _ | .and _ _ | .or _ _ | .xor _ _ | .loop _ _ => true
  | .shlN _ _ | .shrN _ _ | .rolN _ _ | .rorN _ _ => true
  | .shlCr _ | .shrCr _ | .rolCr _ | .rorCr _ | .adc _ | .sbm _ | .neg _ | .loadro _ => true
  | .mulConst _ _ _ | .mulReg _ _ _ => true
  | _ => false

/-- The six reserved rows of spec/opcode_table.json (R93). -/
def isReserved : Instr → Bool
  | .store0Reserved _ _ | .store1Reserved _ _ | .swapReserved _ _ => true
  | .unary6Reserved _ _ _ | .unary7Reserved _ _ _ | .mulReserved _ _ _ => true
  | _ => false

/-- A halted state: the next step leaves every data cell, pc included, as it is (R255; UNVERIFIED, log 26: D22). -/
def Halted (s : State) : Prop :=
  ∃ t, step s = .next t ∧ ∀ a : Byte, t.cell a = s.cell a

/-- `t` is the first halted state of the run from `s`, reached after `n` steps (R255). -/
def HaltsAt (s : State) (n : Nat) (t : State) : Prop :=
  core.run n s = .next t ∧ Halted t ∧ ∀ k < n, ∀ u, core.run k s = .next u → ¬ Halted u

/-- The final data space of the run from `s`: that of the first halted state reached (R255). -/
def FinalData (s : State) (data : Byte → Byte) : Prop :=
  ∃ n t, HaltsAt s n t ∧ ∀ a : Byte, data a = t.cell a

/-- The run from `s` reaches a fault (R221). -/
def Faults (s : State) : Prop := ∃ n f, core.run n s = .fault f

/-- A run that reaches no halted state and no fault (R255). -/
def NonTerminating (s : State) : Prop := (¬ ∃ n t, HaltsAt s n t) ∧ ¬ Faults s

/-- `n` executions of the same instruction, each from the state the one before left. -/
def execTimes (i : Instr) : Nat → State → Result
  | 0, s => .next s
  | n + 1, s =>
    match exec i s with
    | .next t => execTimes i n t
    | r => r

end Sys2Proof.Safety
end

