-- ==== Sys2Proof/Certificates/Slice0/Obligations.lean ====
section
/-! DEFINITION. The statements for the provers. A cell is a data cell, so that a statement about every cell is about
every register and every byte of memory (R22). SameBut lists the cells that may differ; cell 0x06 is pc. The spec marks
many of its rules as its own decisions (92_eei_decisions.md): where a statement rests on one, its docstring names the
decision and the log entry, and its basis is derived. -/

open Sys2Proof Sys2Proof.Config Sys2Proof.Machine Sys2Proof.Safety

/-! ### Encoding -/

/-- Decoding what the encoder wrote gives every well-formed instruction back, with every operand. The bits of a
format are read most significant first (D2, log 2), and mul has the layout of D15 (log 15). -/
def Obligations.EncodeThenDecodeReturnsTheInstruction : Prop :=
  ∀ i : Instr, i.wellFormed = true → decode params (encode i) = some i

/-- Every 16-bit word decodes to a well-formed instruction, whose encoding is the word with the bits that have no use
cleared (section 9 of 30_encoding.md; that unused bits are ignored is D18, log 18). -/
def Obligations.EveryWordDecodesAndEncodesBack : Prop :=
  ∀ w : Word, ∃ i : Instr, decode params w = some i ∧ i.wellFormed = true ∧ encode i = w &&& ~~~(unusedBits w)

/-- The words that decode to a reserved row are exactly those of the five patterns of 30_encoding.md section 9.
That these are the model's faults is D17 (log 17); the mul pattern is D15 (log 15). -/
def Obligations.ReservedWordsAreExactlyThePatterns : Prop :=
  ∀ (w : Word) (i : Instr), decode params w = some i →
    (isReserved i = true ↔
      w &&& 0xF300#16 = 0x1000#16 ∨ w &&& 0xF300#16 = 0x9000#16 ∨ w &&& 0xF300#16 = 0xA000#16 ∨
      w &&& 0xF0F0#16 = 0xC060#16 ∨ w &&& 0xF0F0#16 = 0xC070#16 ∨
      (w &&& 0xF100#16 = 0xF000#16 ∧ w &&& 0x00F8#16 ≠ 0#16))

/-- Changing bits that have no use leaves the decoded instruction as it is (D18, log 18). -/
def Obligations.UnusedBitsDoNotChangeTheInstruction : Prop :=
  ∀ w m : Word, m &&& unusedBits w = m → decode params (w ^^^ m) = decode params w

/-- Format A: the four fields of the word, the target register of field `b` and the operand of source type `cc`, for
each of its twelve opcodes. A store and swap have no constant form: their words with `cc = 00` are the reserved rows. -/
def Obligations.FormatAFieldsDecode : Prop :=
  ∀ (b cc : Fin 4) (d : Byte),
    let word (op : Nat) : Word := BitVec.ofNat 16 (0x1000 * op + 0x400 * b.val + 0x100 * cc.val + d.toNat)
    let x : GReg := match b with | 0 => .r0 | 1 => .r1 | 2 => .r2 | 3 => .r3
    let y : SReg := match b with | 0 => .cr | 1 => .flags | 2 => .pc | 3 => .lr
    let src : Src := match cc with
      | 0 => .const d | 1 => .cell (.abs d) | 2 => .cell (.r0Rel d) | 3 => .cell (.r1Rel d)
    let storing (cell : Loc → Instr) (reserved : Instr) : Instr := match cc with
      | 0 => reserved | 1 => cell (.abs d) | 2 => cell (.r0Rel d) | 3 => cell (.r1Rel d)
    decode params (word 0) = some (.load0 x src) ∧
    decode params (word 1) = some (storing (.store0 x) (.store0Reserved x d)) ∧
    decode params (word 2) = some (.add x src) ∧
    decode params (word 3) = some (.sub x src) ∧
    decode params (word 4) = some (.and x src) ∧
    decode params (word 5) = some (.or x src) ∧
    decode params (word 6) = some (.xor x src) ∧
    decode params (word 7) = some (.cmp x src) ∧
    decode params (word 8) = some (.load1 y src) ∧
    decode params (word 9) = some (storing (.store1 y) (.store1Reserved y d)) ∧
    decode params (word 10) = some (storing (.swap x) (.swapReserved x d)) ∧
    decode params (word 11) = some (.loop x src)

/-- The sub-op field of format B selects the instruction of the sub-op table; each word is written with the bits that
have no use at zero. The argument of the first four is the count: three immediate bits, or 8 plus a register number. -/
def Obligations.UnarySubOpSelectsTheInstruction : Prop :=
  ∀ (b : GReg) (n : Count),
    let word (sub : Nat) (arg : Nat) : Word := BitVec.ofNat 16 (0xC000 + 0x400 * b.bits.toNat + 0x10 * sub + arg)
    let arg : Nat := match n with | .imm k => k.toNat | .reg r => 8 + r.bits.toNat
    decode params (word 0 arg) = some (.shlN b n) ∧
    decode params (word 1 arg) = some (.shrN b n) ∧
    decode params (word 2 arg) = some (.rolN b n) ∧
    decode params (word 3 arg) = some (.rorN b n) ∧
    decode params (word 4 0) = some (.rolc b) ∧
    decode params (word 5 0) = some (.rorc b) ∧
    decode params (word 6 0) = some (.unary6Reserved b 0 0) ∧
    decode params (word 7 0) = some (.unary7Reserved b 0 0) ∧
    decode params (word 8 0) = some (.shlCr b) ∧
    decode params (word 9 0) = some (.shrCr b) ∧
    decode params (word 10 0) = some (.rolCr b) ∧
    decode params (word 11 0) = some (.rorCr b) ∧
    decode params (word 12 0) = some (.adc b) ∧
    decode params (word 13 0) = some (.sbm b) ∧
    decode params (word 14 0) = some (.neg b) ∧
    decode params (word 15 0) = some (.loadro b)

/-- The words of mul, under the spec's own layout D15 (log 15): constant form, register form, and the reserved words
with an index above 7. -/
def Obligations.MulWordsDecode : Prop :=
  ∀ (sg : Bool) (ms : GReg) (e : Byte),
    let word (sel : Nat) : Word :=
      BitVec.ofNat 16 (0xF000 + 0x800 * sg.toNat + 0x200 * ms.bits.toNat + 0x100 * sel + e.toNat)
    decode params (word 1) = some (.mulConst sg ms e) ∧
    (∀ r : Reg, e = regAddr r → decode params (word 0) = some (.mulReg sg ms r)) ∧
    (8 ≤ e.toNat → decode params (word 0) = some (.mulReserved sg ms e))

/-- Words of the decode table of 95_test_vectors.md section 4, one for each family. -/
def Obligations.SampleWordsDecode : Prop :=
  decode params 0x020A#16 = some (.load0 .r0 (.cell (.r0Rel 0x0A))) ∧
  decode params 0x1300#16 = some (.store0 .r0 (.r1Rel 0x00)) ∧
  decode params 0x3405#16 = some (.sub .r1 (.const 0x05)) ∧
  decode params 0x720A#16 = some (.cmp .r0 (.cell (.r0Rel 0x0A))) ∧
  decode params 0x8907#16 = some (.load1 .pc (.cell (.abs 0x07))) ∧
  decode params 0x9D30#16 = some (.store1 .lr (.abs 0x30)) ∧
  decode params 0xA520#16 = some (.swap .r1 (.abs 0x20)) ∧
  decode params 0xBC03#16 = some (.loop .r3 (.const 0x03)) ∧
  decode params 0xC824#16 = some (.rolN .r2 (.imm 4)) ∧
  decode params 0xCCB0#16 = some (.rorCr .r3) ∧
  decode params 0xDFC5#16 = some (.setflags 0x3F 0x05) ∧
  decode params 0xEA02#16 = some (.bne 0x02) ∧
  decode params 0xF564#16 = some (.mulConst false .r2 0x64) ∧
  decode params 0xF008#16 = some (.mulReserved false .r0 0x08)

/-! ### The machine as a whole -/

/-- A step is the meaning of the instruction decoded at pc: nothing is added around exec, which itself advances pc
(the instruction cycle, D4 and D21, log 4 and 25). -/
def Obligations.StepRunsTheDecodedInstruction : Prop :=
  ∀ (s : State) (i : Instr), decode params (s.codeCell s.pc) = some i → step s = exec i s

/-- Every step keeps both cell lists in canonical form: addresses strictly rising, data addresses 0x08 to 0xFF, code
addresses 0x00 to 0xFF. The form is the model's (log 22, 24); the ranges are the spec's (D1, D5). -/
def Obligations.EveryStepKeepsTheCanonicalForm : Prop :=
  ∀ s t : State, Canonical s → step s = .next t → Canonical t

/-- Reset leaves pc at 0x00 (D20, log 20), and the state is canonical; so is every launched image in canonical form,
whatever the registers hold. The zeros of the other registers are the model's choice (log 21) and are not stated. -/
def Obligations.ResetIsCanonicalWithPcZero : Prop :=
  State.reset.pc = 0x00 ∧ Launched State.reset ∧
  ∀ (s : State) (code : CodeSpace) (ram : Memory), s.pc = 0x00 →
    Memory.wf 0 256 code = true → Memory.wf 8 256 ram = true → Launched (s.launch code ram)

/-- No instruction writes the code space: after every step every code cell is as before. -/
def Obligations.NoStepWritesTheCodeSpace : Prop :=
  ∀ s t : State, step s = .next t → t.code = s.code ∧ ∀ a : Byte, t.codeCell a = s.codeCell a

/-- An instruction that does not write cell 0x06 leaves pc one further, modulo 256 (D4, log 4). -/
def Obligations.PcAdvancesByOneUnlessWritten : Prop :=
  ∀ (i : Instr) (s t : State), exec i s = .next t → ¬ WritesPc i s → t.pc.toNat = (s.pc.toNat + 1) % 256

/-- The frame of every instruction: no data cell but pc and the cells listed for the instruction changes, no code cell
changes, and no free value is drawn. That arithmetic leaves the flags cell is D8 (log 8). -/
def Obligations.OnlyTheListedCellsChange : Prop :=
  ∀ (i : Instr) (s t : State), exec i s = .next t → SameBut (regAddr .pc :: writableCells i s) s t

/-- What an instruction writes depends only on the address it stands at, the code space and the cells it reads: in
two states that agree there, it writes the same values to the same cells and continues at the same address. No
instruction reads or writes another cell implicitly (10_state.md sections 2 and 3, 20_memory.md section 2). -/
def Obligations.ResultDependsOnlyOnTheCellsRead : Prop :=
  ∀ (i : Instr) (s t s' : State), exec i s = .next s' → t.pc = s.pc →
    (∀ a : Byte, t.codeCell a = s.codeCell a) → (∀ a ∈ readCells i s, t.cell a = s.cell a) →
    ∃ t', exec i t = .next t' ∧ writableCells i t = writableCells i s ∧
      ∀ a ∈ regAddr .pc :: writableCells i s, t'.cell a = s'.cell a

/-- From every state the step completes, unless the fetched word is reserved; then it is the model fault with that
word, bit for bit, and its address (60_exceptions.md section 1; D17, log 17). Nothing else ever stops. -/
def Obligations.EveryStepCompletesUnlessReserved : Prop :=
  ∀ s : State,
    if isReserved (decodeWord (s.codeCell s.pc)) = true then
      step s = .fault (.reservedEncoding (s.codeCell s.pc) s.pc)
    else ∃ t, step s = .next t

/-- A register and its data cell are one storage: read after write over the data space, by name and by address
(D5, log 5). -/
def Obligations.RegistersAreDataCells : Prop :=
  ∀ (s : State) (r : Reg) (a c v : Byte),
    s.cell (regAddr r) = s.reg r ∧ s.setCell (regAddr r) v = s.setReg r v ∧
    (s.setCell a v).cell c = if c = a then v else s.cell c

/-- A store of any of the eight registers, through any address form, followed by a load to any of the eight through any
address form that names the same cell, loads what was stored (20_memory.md section 5, D21, log 25). Cell 0x06 is
included: the store jumps there and the next read of pc gives that address (D3, log 3). -/
def Obligations.LoadAfterStoreReturnsTheValue : Prop :=
  ∀ (s : State) (b c : GReg) (x y : SReg) (l m : Loc),
    let loads (store : Instr) (v : Byte) : Prop := ∃ t, exec store s = .next t ∧
      (t.ea params m = s.ea params l →
        (∃ u, exec (.load0 c (.cell m)) t = .next u ∧ u.cell (gAddr c) = v) ∧
        (∃ u, exec (.load1 y (.cell m)) t = .next u ∧ u.reg (sRegReg y) = v))
    loads (.store0 b l) (s.cell (gAddr b)) ∧ loads (.store1 x l) (s.reg (sRegReg x))

/-! ### Operands -/

/-- The effective address and the value of an operand, for each of the four source types; the offset is unsigned, and
because addresses wrap (D5, log 5) a signed reading gives the same address; the base register is read before the
instruction writes, as in the spec's example `add r0, [r0+10]`. At address 0x06 the operand of that example is the
add's own address (D3, log 3). -/
def Obligations.EffectiveAddressAndOperandValue : Prop :=
  ∀ (s : State) (d : Byte) (l : Loc),
    (s.ea params (.abs d)).toNat = d.toNat ∧
    (s.ea params (.r0Rel d)).toNat = (s.r0.toNat + d.toNat) % 256 ∧
    (s.ea params (.r1Rel d)).toNat = (s.r1.toNat + d.toNat) % 256 ∧
    s.operand params (.const d) = d ∧
    s.operand params (.cell l) = s.peek params (s.ea params l) ∧
    ((s.ea params (.r0Rel d)).toNat : Int) = (s.r0.toNat + d.toInt) % 256 ∧
    ((s.ea params (.r1Rel d)).toNat : Int) = (s.r1.toNat + d.toInt) % 256 ∧
    ∃ t, exec (.add .r0 (.cell (.r0Rel d))) s = .next t ∧
      t.r0.toNat = (s.r0.toNat + (s.cell (BitVec.ofNat 8 (s.r0.toNat + d.toNat))).toNat) % 256

/-- The count of a shift: three immediate bits, or the low three bits of a general register (D11, log 11). -/
def Obligations.ShiftCountIsThreeBits : Prop :=
  ∀ (s : State) (n : BitVec 3) (r : GReg),
    s.count params (.imm n) = n.toNat ∧ s.count params (.reg r) = (s.cell (gAddr r)).toNat % 8

/-! ### Loads, stores, swap -/

/-- load0: every word 0x0000 to 0x0FFF is one; it completes in every state; the target takes the operand's value, pc
advances by PC_STEP, and every other cell is unchanged, the flags among them. -/
def Obligations.Load0LoadsTheOperand : Prop :=
  (∀ w : Word, w.toNat < 0x1000 → ∃ b src, decode params w = some (.load0 b src)) ∧
  ∀ (b : GReg) (src : Src) (s : State), ∃ t, exec (.load0 b src) s = .next t ∧
    t.cell (gAddr b) = s.operand params src ∧ t.pc = s.pc + params.pcStep ∧ SameBut [gAddr b, regAddr .pc] s t

/-- load1: every word 0x8000 to 0x8FFF is one; it completes in every state; cr, flags, pc or lr takes the operand's
value, all 8 bits, and every other cell but pc is unchanged. With target pc it is a jump: pc is the value loaded; with
another target pc advances by PC_STEP (D4, log 4). -/
def Obligations.Load1LoadsTheOperand : Prop :=
  (∀ w : Word, 0x8000 ≤ w.toNat → w.toNat < 0x9000 → ∃ x src, decode params w = some (.load1 x src)) ∧
  ∀ (x : SReg) (src : Src) (s : State), ∃ t, exec (.load1 x src) s = .next t ∧
    t.reg (sRegReg x) = s.operand params src ∧ (x ≠ .pc → t.pc = s.pc + params.pcStep) ∧
    SameBut [sAddr x, regAddr .pc] s t

/-- store0 completes in every state; the cell at the effective address takes the register's value, and every other
cell but pc is unchanged. A store to cell 0x06 is a jump: pc is the value stored; else pc advances (D4, log 4). -/
def Obligations.Store0StoresTheRegister : Prop :=
  ∀ (b : GReg) (l : Loc) (s : State), ∃ t, exec (.store0 b l) s = .next t ∧
    t.cell (s.ea params l) = s.cell (gAddr b) ∧ SameBut [s.ea params l, regAddr .pc] s t ∧
    (s.ea params l ≠ regAddr .pc → t.pc = s.pc + 1)

/-- store1 completes in every state; the cell at the effective address takes cr, flags, pc or lr, and every other cell
but pc is unchanged. Of pc it stores the address of the store itself (D3, log 3). A store to cell 0x06 is a jump, else
pc advances (D4, log 4). -/
def Obligations.Store1StoresTheRegister : Prop :=
  ∀ (x : SReg) (l : Loc) (s : State), ∃ t, exec (.store1 x l) s = .next t ∧
    t.cell (s.ea params l) = s.reg (sRegReg x) ∧ SameBut [s.ea params l, regAddr .pc] s t ∧
    (s.ea params l ≠ regAddr .pc → t.pc = s.pc + 1)

/-- swap completes in every state; the register takes the old cell and the cell the old register, both read before
either is written (D10, log 10), and every other cell but pc is unchanged; pc advances unless it is the cell (D4). -/
def Obligations.SwapExchangesRegisterAndCell : Prop :=
  ∀ (b : GReg) (l : Loc) (s : State), ∃ t, exec (.swap b l) s = .next t ∧
    t.cell (gAddr b) = s.cell (s.ea params l) ∧ t.cell (s.ea params l) = s.cell (gAddr b) ∧
    SameBut [gAddr b, s.ea params l, regAddr .pc] s t ∧
    (s.ea params l ≠ regAddr .pc → t.pc = s.pc + 1)

/-- `swap rX, pc` jumps to the address in rX and leaves its own address there (D3 and D4, log 3 and 4). -/
def Obligations.SwapWithPcJumpsAndLinks : Prop :=
  ∀ (b : GReg) (s : State), ∃ t, exec (.swap b (.abs (regAddr .pc))) s = .next t ∧
    t.pc = s.cell (gAddr b) ∧ t.cell (gAddr b) = s.pc ∧ SameBut [gAddr b, regAddr .pc] s t

/-- The six reserved rows stop on every path, with the fault that records their word and address and with nothing
written (D17, log 17). -/
def Obligations.ReservedRowsFault : Prop :=
  ∀ (s : State) (b : GReg) (x : SReg) (d : Byte) (xx : BitVec 2) (arg : BitVec 4) (sg : Bool),
    let stop (w : Nat) : Result := .fault (.reservedEncoding (BitVec.ofNat 16 w) s.pc)
    exec (.store0Reserved b d) s = stop (0x1000 + 0x400 * b.bits.toNat + d.toNat) ∧
    exec (.store1Reserved x d) s = stop (0x9000 + 0x400 * x.bits.toNat + d.toNat) ∧
    exec (.swapReserved b d) s = stop (0xA000 + 0x400 * b.bits.toNat + d.toNat) ∧
    exec (.unary6Reserved b xx arg) s = stop (0xC060 + 0x400 * b.bits.toNat + 0x100 * xx.toNat + arg.toNat) ∧
    exec (.unary7Reserved b xx arg) s = stop (0xC070 + 0x400 * b.bits.toNat + 0x100 * xx.toNat + arg.toNat) ∧
    exec (.mulReserved sg b d) s = stop (0xF000 + 0x800 * sg.toNat + 0x200 * b.bits.toNat + d.toNat)

/-! ### Arithmetic -/

/-- The math family: every word 0x2000 to 0x6FFF is one of the five; each completes in every state, for every operand
form; the target takes the 8-bit result of its old value and the operand, pc advances by PC_STEP (D4, log 4), and no
cell but the target, the flags cell and pc changes. (The flags cell: see ArithmeticLeavesTheFlags.) The operators have
their C meaning (G6, log 34). -/
def Obligations.MathWritesTheTarget : Prop :=
  (∀ w : Word,
    (0x2000 ≤ w.toNat ∧ w.toNat < 0x3000 → ∃ b src, decode params w = some (.add b src)) ∧
    (0x3000 ≤ w.toNat ∧ w.toNat < 0x4000 → ∃ b src, decode params w = some (.sub b src)) ∧
    (0x4000 ≤ w.toNat ∧ w.toNat < 0x5000 → ∃ b src, decode params w = some (.and b src)) ∧
    (0x5000 ≤ w.toNat ∧ w.toNat < 0x6000 → ∃ b src, decode params w = some (.or b src)) ∧
    (0x6000 ≤ w.toNat ∧ w.toNat < 0x7000 → ∃ b src, decode params w = some (.xor b src))) ∧
  ∀ (b : GReg) (src : Src) (s : State),
    let gives (i : Instr) (r : Nat) : Prop := ∃ t, exec i s = .next t ∧
      (t.cell (gAddr b)).toNat = r ∧ t.pc = s.pc + params.pcStep ∧
      SameBut [gAddr b, regAddr .flags, regAddr .pc] s t
    let a := (s.cell (gAddr b)).toNat
    let v := (s.operand params src).toNat
    gives (.add b src) ((a + v) % 256) ∧
    gives (.sub b src) ((a + 256 - v) % 256) ∧
    gives (.and b src) (a &&& v) ∧
    gives (.or b src) (a ||| v) ∧
    gives (.xor b src) (a ^^^ v)

/-- Under ARITH_FLAGS = none, the spec's decision D8 (log 8), the instructions of opcodes 2 to 6, 11, 12 and 15, less
rolc and rorc, leave all 8 bits of the flags cell. -/
def Obligations.ArithmeticLeavesTheFlags : Prop :=
  ∀ (i : Instr) (s : State), arithWritesNoFlag i = true → ∃ t, exec i s = .next t ∧ t.flags = s.flags

/-- Under ARITH_FLAGS = havoc a math instruction, with any operand whose cells are implemented, still gives its result
and advances pc, and beside its target only minus, zero and carry may change: no other bit of the flags cell, no other
cell and no code cell (D8, log 8 and 31; D4, log 4), whatever the free values are and for every layout of the flags. -/
def Obligations.HavocChangesOnlyThreeFlags : Prop :=
  ∀ (p : Params) (f : Byte → Byte → Byte) (b : GReg) (src : Src) (s : State),
    p.arithFlags = .havoc → p.wellFormed = true → (∀ l, src = .cell l → (s.ea p l).toNat < p.dataBytes) →
    ∃ t, mathOp p f b src s = .next t ∧ t.cell (gAddr b) = f (s.cell (gAddr b)) (s.operand p src) ∧
      t.pc = s.pc + p.pcStep ∧ t.code = s.code ∧
      (∀ a : Byte, a ∉ [gAddr b, regAddr .flags, regAddr .pc] → t.cell a = s.cell a) ∧
      ∀ i < 8, i ≠ flagPos p.flagBit .minus → i ≠ flagPos p.flagBit .zero → i ≠ flagPos p.flagBit .carry →
        t.flags.getLsbD i = s.flags.getLsbD i

/-- shl.n, with its word: it completes in every state; the target is shifted left by the count, bits leaving bit 7 are
lost (G5, log 34), pc advances by PC_STEP (D4, log 4), and no cell but the target, the flags cell and pc changes. -/
def Obligations.ShlNShiftsLeft : Prop :=
  ∀ (b : GReg) (n : Count) (s : State),
    let arg : Nat := match n with | .imm k => k.toNat | .reg r => 8 + r.bits.toNat
    decode params (BitVec.ofNat 16 (0xC000 + 0x400 * b.bits.toNat + arg)) = some (.shlN b n) ∧
    ∃ t, exec (.shlN b n) s = .next t ∧
      (t.cell (gAddr b)).toNat = ((s.cell (gAddr b)).toNat * 2 ^ s.count params n) % 256 ∧
      t.pc = s.pc + params.pcStep ∧ SameBut [gAddr b, regAddr .flags, regAddr .pc] s t

/-- shr.n completes in every state; the target is shifted right by the count with zeros entering at bit 7 (D11,
log 11), flags stay (D8) and pc advances (D4). -/
def Obligations.ShrNShiftsRightWithZeros : Prop :=
  ∀ (b : GReg) (n : Count) (s : State), ∃ t, exec (.shrN b n) s = .next t ∧
    (t.cell (gAddr b)).toNat = (s.cell (gAddr b)).toNat / 2 ^ s.count params n ∧
    t.pc = s.pc + 1 ∧ SameBut [gAddr b, regAddr .pc] s t

/-- rol.n and ror.n, with their words: they complete in every state; by n they move bit i of the target to bit
(i + n) mod 8, and bit (i + n) mod 8 to bit i (G5, log 34); pc advances by PC_STEP (D4, log 4), and no cell but the
target, the flags cell and pc changes. Carry takes no part: the result is the target's own bits. -/
def Obligations.RotatesMoveEveryBit : Prop :=
  ∀ (b : GReg) (n : Count) (s : State),
    let arg : Nat := match n with | .imm k => k.toNat | .reg r => 8 + r.bits.toNat
    let frame (t : State) : Prop :=
      t.pc = s.pc + params.pcStep ∧ SameBut [gAddr b, regAddr .flags, regAddr .pc] s t
    decode params (BitVec.ofNat 16 (0xC020 + 0x400 * b.bits.toNat + arg)) = some (.rolN b n) ∧
    decode params (BitVec.ofNat 16 (0xC030 + 0x400 * b.bits.toNat + arg)) = some (.rorN b n) ∧
    (∃ t, exec (.rolN b n) s = .next t ∧ frame t ∧
      ∀ i < 8, (t.cell (gAddr b)).getLsbD ((i + s.count params n) % 8) = (s.cell (gAddr b)).getLsbD i) ∧
    (∃ t, exec (.rorN b n) s = .next t ∧ frame t ∧
      ∀ i < 8, (t.cell (gAddr b)).getLsbD i = (s.cell (gAddr b)).getLsbD ((i + s.count params n) % 8))

/-- The `.cr` shifts complete in every state and do what the `.n` forms do with the count `cr mod 8` (D11, log 11);
cr is not changed. -/
def Obligations.CrShiftsActAsConstantShifts : Prop :=
  ∀ (b : GReg) (s : State),
    let n : Count := .imm (BitVec.ofNat 3 s.cr.toNat)
    (∃ t, exec (.shlCr b) s = .next t ∧ exec (.shlN b n) s = .next t ∧ t.cr = s.cr) ∧
    (∃ t, exec (.shrCr b) s = .next t ∧ exec (.shrN b n) s = .next t ∧ t.cr = s.cr) ∧
    (∃ t, exec (.rolCr b) s = .next t ∧ exec (.rolN b n) s = .next t ∧ t.cr = s.cr) ∧
    (∃ t, exec (.rorCr b) s = .next t ∧ exec (.rorN b n) s = .next t ∧ t.cr = s.cr)

/-- rolc and rorc complete in every state and rotate the 9-bit ring of carry and register by one (D12, log 12);
the other seven bits of the flags cell and every other cell but pc are unchanged (FLAG_BIT: D6, log 6). -/
def Obligations.RotateThroughCarryIsANineBitRing : Prop :=
  ∀ (b : GReg) (s : State),
    let ring (u : State) : BitVec 9 := BitVec.ofBool (u.flag params .carry) ++ u.cell (gAddr b)
    let others (t : State) : Prop := (∀ i < 8, i ≠ 2 → t.flags.getLsbD i = s.flags.getLsbD i) ∧
      t.pc = s.pc + 1 ∧ SameBut [gAddr b, regAddr .flags, regAddr .pc] s t
    (∃ t, exec (.rolc b) s = .next t ∧ ring t = (ring s).rotateLeft 1 ∧ others t) ∧
    (∃ t, exec (.rorc b) s = .next t ∧ ring t = (ring s).rotateRight 1 ∧ others t)

/-- rorc undoes rolc and rolc undoes rorc: register and all flags (D12, log 12). -/
def Obligations.RorcUndoesRolc : Prop :=
  ∀ (b : GReg) (s : State),
    (∃ t u, exec (.rolc b) s = .next t ∧ exec (.rorc b) t = .next u ∧
      SameBut [regAddr .pc] s u) ∧
    (∃ t u, exec (.rorc b) s = .next t ∧ exec (.rolc b) t = .next u ∧
      SameBut [regAddr .pc] s u)

/-- Nine successive rolc, and nine successive rorc, restore register and carry (D12, log 12). -/
def Obligations.NineRotatesThroughCarryRestore : Prop :=
  ∀ (b : GReg) (s : State),
    (∃ t, execTimes (.rolc b) 9 s = .next t ∧ SameBut [regAddr .pc] s t) ∧
    (∃ t, execTimes (.rorc b) 9 s = .next t ∧ SameBut [regAddr .pc] s t)

/-- adc, sbm and neg complete in every state: adc adds carry, sbm subtracts minus, neg negates, all modulo 256; the
flags and every other cell but pc are unchanged (D13, log 13; D8, log 8). -/
def Obligations.AdcSbmNegWrapAndKeepFlags : Prop :=
  ∀ (b : GReg) (s : State),
    let gives (i : Instr) (r : Nat) : Prop := ∃ t, exec i s = .next t ∧
      (t.cell (gAddr b)).toNat = r ∧ t.pc = s.pc + 1 ∧ SameBut [gAddr b, regAddr .pc] s t
    let v := (s.cell (gAddr b)).toNat
    gives (.adc b) ((v + (s.flag params .carry).toNat) % 256) ∧
    gives (.sbm b) ((v + 256 - (s.flag params .minus).toNat) % 256) ∧
    gives (.neg b) ((256 - v) % 256)

/-- loadro completes in every state: it reads the code cell at the address in the target register (D14, log 14), high
byte to r0 and low byte to r1 (D27, log 30); flags stay (D8), pc advances (D4). -/
def Obligations.LoadroReadsACodeCell : Prop :=
  ∀ (b : GReg) (s : State), ∃ t, exec (.loadro b) s = .next t ∧
    t.r0.toNat = (s.codeCell (s.cell (gAddr b))).toNat / 256 ∧
    t.r1.toNat = (s.codeCell (s.cell (gAddr b))).toNat % 256 ∧
    t.pc = s.pc + 1 ∧ SameBut [regAddr .r0, regAddr .r1, regAddr .pc] s t

/-- mul completes in every state, with a constant and with any of the eight registers as multiplier: r0:r1 is the
exact product of the old values, unsigned, or signed in both operands (D15, log 15; r0 is the high byte, D27, log 30);
flags stay (D8), pc advances (D4). -/
def Obligations.MulGivesTheExactProduct : Prop :=
  ∀ (ms : GReg) (e : Byte) (r : Reg) (s : State),
    let pair (t : State) : Word := t.r0 ++ t.r1
    let rest (t : State) : Prop := t.pc = s.pc + 1 ∧ SameBut [regAddr .r0, regAddr .r1, regAddr .pc] s t
    let a := s.cell (gAddr ms)
    (∃ t, exec (.mulConst false ms e) s = .next t ∧ (pair t).toNat = a.toNat * e.toNat ∧ rest t) ∧
    (∃ t, exec (.mulConst true ms e) s = .next t ∧ (pair t).toInt = a.toInt * e.toInt ∧ rest t) ∧
    (∃ t, exec (.mulReg false ms r) s = .next t ∧ (pair t).toNat = a.toNat * (s.reg r).toNat ∧ rest t) ∧
    (∃ t, exec (.mulReg true ms r) s = .next t ∧ (pair t).toInt = a.toInt * (s.reg r).toInt ∧ rest t)

/-! ### Flags and branches -/

/-- cmp completes in every state: zero says whether target and operand are equal, minus whether the target is below it
as an unsigned number (D9, log 9); the other six bits of the flags cell and every other cell but pc are unchanged
(FLAG_BIT: D6, log 6). -/
def Obligations.CmpSetsMinusAndZero : Prop :=
  ∀ (b : GReg) (src : Src) (s : State), ∃ t, exec (.cmp b src) s = .next t ∧
    (t.flag params .zero = true ↔ s.cell (gAddr b) = s.operand params src) ∧
    (t.flag params .minus = true ↔ (s.cell (gAddr b)).toNat < (s.operand params src).toNat) ∧
    (∀ i < 8, 2 ≤ i → t.flags.getLsbD i = s.flags.getLsbD i) ∧
    t.pc = s.pc + 1 ∧ SameBut [regAddr .flags, regAddr .pc] s t

/-- The three readings of CMP_MINUS agree whenever bit 7 of the two operands is equal (44_cmp.md; D9, log 9). -/
def Obligations.CmpReadingsAgreeOnEqualTopBits : Prop :=
  ∀ a v : Byte, a.getLsbD 7 = v.getLsbD 7 →
    cmpMinusFlag .signedLess a v = cmpMinusFlag .unsignedLess a v ∧
    cmpMinusFlag .diffBit7 a v = cmpMinusFlag .unsignedLess a v

/-- For every injective layout of the flags, writing one flag of a flags byte changes that flag and no other, and
leaves bits 7:6 (10_state.md section 3; D6 and D7, log 6 and 7). -/
def Obligations.WritingOneFlagKeepsTheOthers : Prop :=
  ∀ (l : FlagLayout) (v : Byte) (f g : Flag) (x : Bool), l.injective = true →
    flagOf l (withFlag l v f x) g = (if g = f then x else flagOf l v g) ∧
    (withFlag l v f x).extractLsb' 6 2 = v.extractLsb' 6 2

/-- setflags: every word 0xD000 to 0xDFFF is one, with its two 6-bit fields; it completes in every state; each bit of
the flags cell whose mask bit is 1 takes its bit of `val`, the others stay, bits 7:6 among them, pc advances by PC_STEP,
and no other cell changes. -/
def Obligations.SetflagsWritesTheMaskedBits : Prop :=
  ∀ (mask val : BitVec 6) (s : State),
    decode params (BitVec.ofNat 16 (0xD000 + 0x40 * mask.toNat + val.toNat)) = some (.setflags mask val) ∧
    ∃ t, exec (.setflags mask val) s = .next t ∧
      (∀ i < 6, t.flags.getLsbD i = if mask.getLsbD i then val.getLsbD i else s.flags.getLsbD i) ∧
      t.flags.getLsbD 6 = s.flags.getLsbD 6 ∧ t.flags.getLsbD 7 = s.flags.getLsbD 7 ∧
      t.pc = s.pc + params.pcStep ∧ SameBut [regAddr .flags, regAddr .pc] s t

/-- The sixteen conditional branches: the word of each, its test, and that it completes in every state, with pc at
the target if the test holds, pc advanced if not, and every other cell unchanged. -/
def Obligations.BranchesFollowTheirTests : Prop :=
  ∀ (d : Byte) (s : State),
    let minus := s.flag params .minus = true
    let zero := s.flag params .zero = true
    let carry := s.flag params .carry = true
    let xtra1 := s.flag params .xtra1 = true
    let xtra2 := s.flag params .xtra2 = true
    let xtra3 := s.flag params .xtra3 = true
    let row (high : Nat) (i : Instr) (test : Prop) : Prop :=
      decode params (BitVec.ofNat 16 (high + d.toNat)) = some i ∧
      ∃ t, exec i s = .next t ∧ SameBut [regAddr .pc] s t ∧
        (test → t.pc = d) ∧ (¬ test → t.pc = s.pc + params.pcStep)
    row 0xE000 (.blt d) (minus ∧ ¬ zero) ∧
    row 0xE100 (.bgt d) (¬ minus ∧ ¬ zero) ∧
    row 0xE200 (.beq d) zero ∧
    row 0xE300 (.bca d) carry ∧
    row 0xE400 (.bmi d) minus ∧
    row 0xE500 (.bxt1 d) xtra1 ∧
    row 0xE600 (.bxt2 d) xtra2 ∧
    row 0xE700 (.bxt3 d) xtra3 ∧
    row 0xE800 (.bgte d) (¬ (minus ∧ ¬ zero)) ∧
    row 0xE900 (.blte d) (¬ (¬ minus ∧ ¬ zero)) ∧
    row 0xEA00 (.bne d) (¬ zero) ∧
    row 0xEB00 (.bnc d) (¬ carry) ∧
    row 0xEC00 (.bnm d) (¬ minus) ∧
    row 0xED00 (.bnx1 d) (¬ xtra1) ∧
    row 0xEE00 (.bnx2 d) (¬ xtra2) ∧
    row 0xEF00 (.bnx3 d) (¬ xtra3)

/-- After `cmp rX, s` the six comparison branches are taken exactly as their names say of the unsigned values
(46_branch.md; D9, log 9): the branch ends at its target if the comparison holds, else two words after the cmp (D4). -/
def Obligations.CompareThenBranchComparesUnsigned : Prop :=
  ∀ (b : GReg) (src : Src) (d : Byte) (s : State), ∃ t, exec (.cmp b src) s = .next t ∧
    let a := (s.cell (gAddr b)).toNat
    let v := (s.operand params src).toNat
    let ends (i : Instr) (holds : Prop) : Prop :=
      ∃ u, exec i t = .next u ∧ (holds → u.pc = d) ∧ (¬ holds → u.pc = s.pc + 2)
    ends (.blt d) (a < v) ∧ ends (.bgt d) (v < a) ∧ ends (.beq d) (a = v) ∧
    ends (.bgte d) (v ≤ a) ∧ ends (.blte d) (a ≤ v) ∧ ends (.bne d) (a ≠ v)

/-! ### Loop -/

/-- loop completes in every state: the register is decremented modulo 256; it jumps to the operand, read before the
decrement, if the new value is not zero (D16, log 16), else pc advances (D4); flags stay (D8) and so does every other
cell. -/
def Obligations.LoopDecrementsAndJumpsIfNotZero : Prop :=
  ∀ (b : GReg) (src : Src) (s : State), ∃ t, exec (.loop b src) s = .next t ∧
    (t.cell (gAddr b)).toNat = ((s.cell (gAddr b)).toNat + 255) % 256 ∧
    (t.cell (gAddr b) ≠ 0 → t.pc = s.operand params src) ∧
    (t.cell (gAddr b) = 0 → t.pc = s.pc + 1) ∧
    SameBut [gAddr b, regAddr .pc] s t

/-- The outcome table of 47_loop.md: for the register values 0, 1, 2 and 255 the register and pc of the next state under
each of the three settings of LOOP_TEST (D16, log 16; the advance is D4, log 4). -/
def Obligations.LoopTestOutcomeTable : Prop :=
  ∀ (b : GReg) (src : Src) (s : State),
    let ends (l : LoopTest) (r : Byte) (jumps : Bool) : Prop :=
      ∃ t, loopOp { params with loopTest := l } b src s = .next t ∧ t.cell (gAddr b) = r ∧
        t.pc = if jumps then s.operand params src else s.pc + 1
    let row (v r : Byte) (post pre preZero : Bool) : Prop := s.cell (gAddr b) = v →
      ends .postNonzero r post ∧ ends .preNonzero r pre ∧ ends .preZero r preZero
    row 0x00 0xFF true false true ∧ row 0x01 0x00 false true false ∧
    row 0x02 0x01 true true false ∧ row 0xFF 0xFE true true false

/-- A loop instruction whose target is itself counts its register down to zero: it is executed as often as the register
says, 256 times for zero, is back at its own address after every time but the last, and then falls through
(47_loop.md; D16, log 16; D4, log 4). -/
def Obligations.LoopCountsItsRegisterDown : Prop :=
  ∀ (b : GReg) (s : State),
    let n := if s.cell (gAddr b) = 0 then 256 else (s.cell (gAddr b)).toNat
    (∀ k < n, ∃ t, execTimes (.loop b (.const s.pc)) k s = .next t ∧ t.pc = s.pc ∧
      (t.cell (gAddr b)).toNat = (n - k) % 256 ∧ SameBut [gAddr b] s t) ∧
    ∃ t, execTimes (.loop b (.const s.pc)) n s = .next t ∧ t.pc = s.pc + 1 ∧ t.cell (gAddr b) = 0 ∧
      SameBut [gAddr b, regAddr .pc] s t

/-! ### Special forms, and the end of a run -/

/-- The words of the special forms, for every address, target and register, `mov lr, pc` and `mov pc, pc` written as
movs among them: no read of pc is assembled for these (30_encoding.md section 10; the constants of bsub and `mov lr,
pc` are D23, log 27; swapn is D24, log 28; the flag patterns are D6, log 6). -/
def Obligations.SpecialFormsAssembleToTheirWords : Prop :=
  ∀ (a dst : Byte) (x : GReg),
    let words (l : AsmLine) : List Word := (assemble params a l).map encode
    let w (n : Nat) : Word := BitVec.ofNat 16 n
    words .ret = [w 0x8907] ∧
    words (.bsub dst) = [w (0x8C00 + (a.toNat + 2) % 256), w (0x8800 + dst.toNat)] ∧
    words (.bra (.const dst)) = [w (0x8800 + dst.toNat)] ∧
    words .halt = [w (0x8800 + a.toNat)] ∧
    words .movLrPc = [w (0x8C00 + a.toNat)] ∧
    words (.movLoad .lr (.reg .pc)) = [w (0x8C00 + a.toNat)] ∧
    words (.movLoad .pc (.reg .pc)) = [w (0x8800 + a.toNat)] ∧
    words (.inc x) = [w (0x2001 + 0x400 * x.bits.toNat)] ∧
    words (.dec x) = [w (0x3001 + 0x400 * x.bits.toNat)] ∧
    words (.not x) = [w (0x60FF + 0x400 * x.bits.toNat)] ∧
    words .setc = [w 0xD104] ∧ words .clc = [w 0xD100] ∧ words .setz = [w 0xD082] ∧ words .clz = [w 0xD080] ∧
    words (.unary .swapn x) = [w (0xC024 + 0x400 * x.bits.toNat)]

/-- A call and its return: the two instructions of `bsub dst` at address A leave lr = A + 2 and pc = dst and change
nothing else, and `ret`, in any state whose lr still holds that, continues at A + 2 and changes nothing else
(40_mov_load_store.md section 3; D23, log 27). -/
def Obligations.CallThenReturnContinuesAfterTheCall : Prop :=
  ∀ (s v : State) (dst : Byte), ∃ i j r t u,
    assemble params s.pc (.bsub dst) = [i, j] ∧ exec i s = .next t ∧ t.pc = s.pc + 1 ∧ exec j t = .next u ∧
    u.pc = dst ∧ u.lr = s.pc + 2 ∧ SameBut [regAddr .lr, regAddr .pc] s u ∧
    assemble params v.pc .ret = [r] ∧
    (v.lr = u.lr → ∃ v', exec r v = .next v' ∧ v'.pc = s.pc + 2 ∧ SameBut [regAddr .pc] v v')

/-- `halt`, assembled for its own address, and the literal word 0x8906 are fixed points of the step (D22, log 26; the
second rests on D3, log 3). -/
def Obligations.HaltIsAFixedPointOfTheStep : Prop :=
  ∀ s : State, (s.codeCell s.pc = BitVec.ofNat 16 (0x8800 + s.pc.toNat) ∨ s.codeCell s.pc = 0x8906#16) →
    step s = .next s ∧ Halted s

/-- A halted state stays: if one step leaves every data cell, pc included, then any number of steps ends in the same
state (70_reset_and_hazards.md section 4; D22, log 26). -/
def Obligations.HaltedStatesStayForever : Prop :=
  ∀ s : State, Halted s → ∀ n : Nat, core.run n s = .next s

/-- A state is halted exactly if the step gives the very same state: leaving every data cell, pc included, leaves
everything (70_reset_and_hazards.md section 4; D22, log 26). -/
def Obligations.HaltedExactlyWhenTheStepFixesTheState : Prop :=
  ∀ s : State, Halted s ↔ step s = .next s

/-- The end of a run: the first halted state, its step count and the final data space are unique; a run that has
reached it stays there and never faults; and the runs that reach neither a halted state nor a fault are those that go
on for ever without a halted state (70_reset_and_hazards.md section 4; D22, log 26). -/
def Obligations.ARunEndsOnceOrGoesOnForEver : Prop :=
  ∀ s : State,
    (∀ n m t u, HaltsAt s n t → HaltsAt s m u → n = m ∧ t = u) ∧
    (∀ d d', FinalData s d → FinalData s d' → d = d') ∧
    (∀ n t, HaltsAt s n t → (∀ k, core.run (n + k) s = .next t) ∧ ¬ Faults s) ∧
    (NonTerminating s ↔ ∀ n, ∃ t, core.run n s = .next t ∧ ¬ Halted t)

/-- runEnd, which computes, finds the first halted state if it is within its steps, else the fault of the run if it is,
else the state the run has come to (70_reset_and_hazards.md section 4; D22, log 26). -/
def Obligations.RunEndFindsTheFirstHaltedState : Prop :=
  ∀ (n : Nat) (s t : State) (f : Fault),
    (runEnd n s = .halted t ↔ ∃ k ≤ n, HaltsAt s k t) ∧
    (runEnd n s = .fault f ↔ core.run n s = .fault f) ∧
    (runEnd n s = .running t ↔ core.run n s = .next t ∧ ¬ Halted t)

/-! ### Other sizes and settings -/

/-- With fewer implemented cells, an access beyond them is a model fault that records the address and writes nothing:
through each address form as the operand of a load, a math instruction, cmp and loop, as the cell of a store and of
swap, where the base and target registers are implemented; the code address of loadro; and the fetch (D25, log 29). -/
def Obligations.UnimplementedCellsFault : Prop :=
  ∀ (p : Params) (f : Byte → Byte → Byte) (s : State) (r : Reg) (b : GReg) (l : Loc) (k : Instr → Result),
    (p.dataBytes ≤ (s.ea p l).toNat → (∀ a ∈ baseCells l, a.toNat < p.dataBytes) →
      loadOp p r (.cell l) s = .fault (.dataOutOfRange (s.ea p l)) ∧
      ((regAddr r).toNat < p.dataBytes → storeOp p r l s = .fault (.dataOutOfRange (s.ea p l))) ∧
      ((gAddr b).toNat < p.dataBytes →
        swapOp p b l s = .fault (.dataOutOfRange (s.ea p l)) ∧
        mathOp p f b (.cell l) s = .fault (.dataOutOfRange (s.ea p l)) ∧
        cmpOp p b (.cell l) s = .fault (.dataOutOfRange (s.ea p l)) ∧
        loopOp p b (.cell l) s = .fault (.dataOutOfRange (s.ea p l)))) ∧
    (p.loadroAddr = .target → (gAddr b).toNat < p.dataBytes → p.codeWords ≤ (s.cell (gAddr b)).toNat →
      loadroOp p b s = .fault (.codeOutOfRange (s.cell (gAddr b)))) ∧
    (p.codeWords ≤ s.pc.toNat → s.fetchDecode p k = .fault (.codeOutOfRange s.pc))

/-- MUL_LAYOUT: under every layout the model admits, every well-formed mul, its reserved row included, decodes from what
the encoder wrote, and the opcode is 15. The spec gives one layout, its default (D15, log 15), and names the layout a
parameter (00_scope.md section 4, 93_implementation_defined.md U6); every other layout, the four fields unbroken and
anywhere in bits 11:0, is the model's own DESIGN CHOICE (log 33). -/
def Obligations.EveryMulLayoutRoundTrips : Prop :=
  ∀ (m : MulLayout) (sg : Bool) (ms : GReg) (e : Byte) (r : Reg), m.wellFormed = true →
    let roundTrip (i : Instr) : Prop :=
      decode { params with mulLayout := m } (encodeWith m i) = some i ∧
        (encodeWith m i).extractLsb' 12 4 = 15#4
    roundTrip (.mulConst sg ms e) ∧ roundTrip (.mulReg sg ms r) ∧
      (8 ≤ e.toNat → roundTrip (.mulReserved sg ms e))

/-- LOADRO_ADDR and RESERVED_POLICY, their other settings: loadro reads the code cell at the address in the set
register, or leaves any value in r0 and r1, which is the next free word, and changes nothing else but pc; a reserved
word is a stuck state (93_implementation_defined.md U1 and U7; log 17). That these settings can be chosen, and the fixed
register, are the model's own DESIGN CHOICE (log 31 and 33). -/
def Obligations.OtherLoadroAndReservedSettings : Prop :=
  ∀ (b : GReg) (r : Reg) (s : State) (w : Word),
    let loads (how : LoadroAddr) (v : Word) : Prop :=
      ∃ t, loadroOp { params with loadroAddr := how } b s = .next t ∧ t.r0 ++ t.r1 = v ∧ t.pc = s.pc + 1 ∧
        t.code = s.code ∧ ∀ a : Byte, a ∉ [regAddr .r0, regAddr .r1, regAddr .pc] → t.cell a = s.cell a
    loads (.register r) (s.codeCell (s.reg r)) ∧ loads .anyValue (freeWord s.freeIndex) ∧
    s.reservedStop { params with reserved := .stuck } w = .refused (.reservedStuck w)
end

