-- ==== Sys2Proof/Laws/Decode.lean ====
section
/-! SUPPORT. The fields of each format as the decoder extracts them from a word the encoder built, and that the
register fields decode to what they encode. -/

namespace Sys2Proof

@[simp] theorem gReg_ofBits_bits (r : GReg) : GReg.ofBits r.bits = r := by cases r <;> rfl

@[simp] theorem sReg_ofBits_bits (r : SReg) : SReg.ofBits r.bits = r := by cases r <;> rfl

@[simp] theorem reg_ofBits_bits (r : Reg) : Reg.ofBits r.bits = r := by cases r <;> rfl

@[simp] theorem gReg_bits_ofBits (v : BitVec 2) : (GReg.ofBits v).bits = v := by revert v; decide

@[simp] theorem sReg_bits_ofBits (v : BitVec 2) : (SReg.ofBits v).bits = v := by revert v; decide

@[simp] theorem reg_bits_ofBits (v : BitVec 3) : (Reg.ofBits v).bits = v := by revert v; decide

@[simp] theorem loc_ofBits_bits (l : Loc) : Loc.ofBits l.bits.1 l.bits.2 = some l := by cases l <;> rfl

@[simp] theorem src_ofBits_bits (s : Src) : Src.ofBits s.bits.1 s.bits.2 = s := by
  cases s with
  | const d => rfl
  | cell l => simp [Src.ofBits, Src.bits]

@[simp] theorem count_ofBits_bits (n : Count) : Count.ofBits n.bits = n := by
  cases n with
  | imm n => revert n; decide
  | reg r => cases r <;> rfl

/-- A field that lies below the highest one does not see it. -/
theorem drop_high {v w start len : Nat} {hi : BitVec v} {lo : BitVec w} {x : BitVec len} (h : start + len ≤ w)
    (hx : lo.extractLsb' start len = x) : (hi ++ lo).extractLsb' start len = x :=
  (BitVec.extractLsb'_append_eq_of_add_le h).trans hx

section Fields

variable (op sub arg ic : BitVec 4) (b cc xx ms : BitVec 2) (d : Byte) (mask val : BitVec 6) (sg sel : Bool)

@[simp] theorem formatA_op : (formatA op b cc d).extractLsb' 12 4 = op :=
  BitVec.extractLsb'_append_eq_left

@[simp] theorem formatA_b : (formatA op b cc d).extractLsb' 10 2 = b :=
  drop_high (by decide) (BitVec.extractLsb'_append_eq_left)

@[simp] theorem formatA_cc : (formatA op b cc d).extractLsb' 8 2 = cc :=
  drop_high (by decide) (drop_high (by decide) (BitVec.extractLsb'_append_eq_left))

@[simp] theorem formatA_d : (formatA op b cc d).extractLsb' 0 8 = d :=
  drop_high (by decide) (drop_high (by decide) (BitVec.extractLsb'_append_eq_right))

@[simp] theorem formatB_op : (formatB b xx sub arg).extractLsb' 12 4 = 12#4 :=
  BitVec.extractLsb'_append_eq_left

@[simp] theorem formatB_b : (formatB b xx sub arg).extractLsb' 10 2 = b :=
  drop_high (by decide) (BitVec.extractLsb'_append_eq_left)

@[simp] theorem formatB_xx : (formatB b xx sub arg).extractLsb' 8 2 = xx :=
  drop_high (by decide) (drop_high (by decide) (BitVec.extractLsb'_append_eq_left))

@[simp] theorem formatB_sub : (formatB b xx sub arg).extractLsb' 4 4 = sub :=
  drop_high (by decide) (drop_high (by decide) (drop_high (by decide) (BitVec.extractLsb'_append_eq_left)))

@[simp] theorem formatB_arg : (formatB b xx sub arg).extractLsb' 0 4 = arg :=
  drop_high (by decide) (drop_high (by decide) (drop_high (by decide) (BitVec.extractLsb'_append_eq_right)))

@[simp] theorem formatC_op : (formatC mask val).extractLsb' 12 4 = 13#4 :=
  BitVec.extractLsb'_append_eq_left

@[simp] theorem formatC_mask : (formatC mask val).extractLsb' 6 6 = mask :=
  drop_high (by decide) (BitVec.extractLsb'_append_eq_left)

@[simp] theorem formatC_val : (formatC mask val).extractLsb' 0 6 = val :=
  drop_high (by decide) (BitVec.extractLsb'_append_eq_right)

@[simp] theorem formatD_op : (formatD ic d).extractLsb' 12 4 = 14#4 :=
  BitVec.extractLsb'_append_eq_left

@[simp] theorem formatD_ic : (formatD ic d).extractLsb' 8 4 = ic :=
  drop_high (by decide) (BitVec.extractLsb'_append_eq_left)

@[simp] theorem formatD_d : (formatD ic d).extractLsb' 0 8 = d :=
  drop_high (by decide) (BitVec.extractLsb'_append_eq_right)

/-- The default layout of format E as one row of fields. -/
theorem formatE_default (sg sel : Bool) (ms : BitVec 2) (e : Byte) :
    formatE Machine.mulLayoutDefault sg ms sel e =
      15#4 ++ (BitVec.ofBool sg ++ (ms ++ (BitVec.ofBool sel ++ e))) := by
  revert sg sel ms e; decide +kernel

@[simp] theorem formatE_op : (formatE Machine.mulLayoutDefault sg ms sel d).extractLsb' 12 4 = 15#4 := by
  rw [formatE_default]
  exact BitVec.extractLsb'_append_eq_left

@[simp] theorem formatE_sg_field : (formatE Machine.mulLayoutDefault sg ms sel d).extractLsb' 11 1 = BitVec.ofBool sg := by
  rw [formatE_default]
  exact drop_high (by decide) (BitVec.extractLsb'_append_eq_left)

@[simp] theorem formatE_ms : (formatE Machine.mulLayoutDefault sg ms sel d).extractLsb' 9 2 = ms := by
  rw [formatE_default]
  exact drop_high (by decide) (drop_high (by decide) (BitVec.extractLsb'_append_eq_left))

@[simp] theorem formatE_sel_field : (formatE Machine.mulLayoutDefault sg ms sel d).extractLsb' 8 1 = BitVec.ofBool sel := by
  rw [formatE_default]
  exact drop_high (by decide) (drop_high (by decide) (drop_high (by decide) (BitVec.extractLsb'_append_eq_left)))

@[simp] theorem formatE_e : (formatE Machine.mulLayoutDefault sg ms sel d).extractLsb' 0 8 = d := by
  rw [formatE_default]
  exact drop_high (by decide) (drop_high (by decide) (drop_high (by decide) (BitVec.extractLsb'_append_eq_right)))

/-- One bit of a word as a field. -/
theorem getLsbD_of_field {w : Word} {i : Nat} {x : Bool} (h : w.extractLsb' i 1 = BitVec.ofBool x) :
    w.getLsbD i = x := by
  have := congrArg (fun v => v.getLsbD 0) h
  simpa [BitVec.getLsbD_extractLsb'] using this

theorem formatE_sg : (formatE Machine.mulLayoutDefault sg ms sel d).getLsbD 11 = sg := getLsbD_of_field (formatE_sg_field ..)

theorem formatE_sel : (formatE Machine.mulLayoutDefault sg ms sel d).getLsbD 8 = sel := getLsbD_of_field (formatE_sel_field ..)

@[simp] theorem formatE_getElem_sg : (formatE Machine.mulLayoutDefault sg ms sel d)[11] = sg := by
  simpa [BitVec.getLsbD_eq_getElem] using formatE_sg ms d sg sel

@[simp] theorem formatE_getElem_sel : (formatE Machine.mulLayoutDefault sg ms sel d)[8] = sel := by
  simpa [BitVec.getLsbD_eq_getElem] using formatE_sel ms d sg sel

end Fields

/-- With the default policy every word decodes (R91). -/
@[simp] theorem decode_params (w : Word) : decode Machine.params w = some (decodeWord w) := rfl

end Sys2Proof
end

