-- ==== Sys2Proof/Laws/Memory.lean ====
section
/-! SUPPORT. The laws of the cell lists: read after write, and that writing keeps the canonical form. -/

namespace Sys2Proof.Machine

variable {w : Nat}

/-- Read after write: the written address gives the value, every other address reads as before. -/
theorem lookup_insert (m : List (Nat × BitVec w)) (a b : Nat) (v : BitVec w) :
    Memory.lookup (Memory.insert m a v) b = if b = a then some v else Memory.lookup m b := by
  induction m with
  | nil => simp [Memory.insert, Memory.lookup, eq_comm]
  | cons c m ih =>
    obtain ⟨c, u⟩ := c
    simp only [Memory.insert]
    split
    · simp [Memory.lookup, eq_comm]
    · split
      · subst_vars
        simp only [Memory.lookup]
        split <;> simp_all [eq_comm]
      · simp only [Memory.lookup, ih]
        split
        · rename_i h1 h2 h3
          subst h3
          simp [show ¬ c = a from fun h => h2 h.symm]
        · rfl

/-- The canonical form only looks at addresses from its bound upwards. -/
theorem wf_mono {m : List (Nat × BitVec w)} {lo lo' hi : Nat} (h : Memory.wf lo hi m = true) (hle : lo' ≤ lo) :
    Memory.wf lo' hi m = true := by
  cases m with
  | nil => rfl
  | cons c m =>
    simp only [Memory.wf, Bool.and_eq_true, decide_eq_true_eq] at *
    exact ⟨⟨by omega, h.1.2⟩, h.2⟩

/-- Writing inside the space keeps the canonical form. -/
theorem wf_insert {m : List (Nat × BitVec w)} {lo hi : Nat} (h : Memory.wf lo hi m = true) {a : Nat}
    (hlo : lo ≤ a) (hhi : a < hi) (v : BitVec w) : Memory.wf lo hi (Memory.insert m a v) = true := by
  induction m generalizing lo with
  | nil => simp [Memory.insert, Memory.wf, hlo, hhi]
  | cons c m ih =>
    obtain ⟨c, u⟩ := c
    simp only [Memory.wf, Bool.and_eq_true, decide_eq_true_eq] at h
    simp only [Memory.insert]
    split
    · simp only [Memory.wf, Bool.and_eq_true, decide_eq_true_eq]
      exact ⟨⟨hlo, hhi⟩, ⟨by omega, h.1.2⟩, h.2⟩
    · split
      · subst_vars
        simp only [Memory.wf, Bool.and_eq_true, decide_eq_true_eq]
        exact ⟨⟨hlo, hhi⟩, h.2⟩
      · simp only [Memory.wf, Bool.and_eq_true, decide_eq_true_eq]
        exact ⟨h.1, ih h.2 (by omega)⟩

end Sys2Proof.Machine
end

