-- ==== Sys2Proof/Laws/State.lean ====
section
/-! SUPPORT. One lemma per field per update of a state: what each update of Machine/Ops.lean leaves in each field. -/

namespace Sys2Proof.Machine

@[simp] theorem setReg_r0_r0 (s : State) (v : Byte) : (s.setReg .r0 v).r0 = v := rfl
@[simp] theorem setReg_r0_r1 (s : State) (v : Byte) : (s.setReg .r0 v).r1 = s.r1 := rfl
@[simp] theorem setReg_r0_r2 (s : State) (v : Byte) : (s.setReg .r0 v).r2 = s.r2 := rfl
@[simp] theorem setReg_r0_r3 (s : State) (v : Byte) : (s.setReg .r0 v).r3 = s.r3 := rfl
@[simp] theorem setReg_r0_cr (s : State) (v : Byte) : (s.setReg .r0 v).cr = s.cr := rfl
@[simp] theorem setReg_r0_flags (s : State) (v : Byte) : (s.setReg .r0 v).flags = s.flags := rfl
@[simp] theorem setReg_r0_pc (s : State) (v : Byte) : (s.setReg .r0 v).pc = s.pc := rfl
@[simp] theorem setReg_r0_lr (s : State) (v : Byte) : (s.setReg .r0 v).lr = s.lr := rfl
@[simp] theorem setReg_r1_r0 (s : State) (v : Byte) : (s.setReg .r1 v).r0 = s.r0 := rfl
@[simp] theorem setReg_r1_r1 (s : State) (v : Byte) : (s.setReg .r1 v).r1 = v := rfl
@[simp] theorem setReg_r1_r2 (s : State) (v : Byte) : (s.setReg .r1 v).r2 = s.r2 := rfl
@[simp] theorem setReg_r1_r3 (s : State) (v : Byte) : (s.setReg .r1 v).r3 = s.r3 := rfl
@[simp] theorem setReg_r1_cr (s : State) (v : Byte) : (s.setReg .r1 v).cr = s.cr := rfl
@[simp] theorem setReg_r1_flags (s : State) (v : Byte) : (s.setReg .r1 v).flags = s.flags := rfl
@[simp] theorem setReg_r1_pc (s : State) (v : Byte) : (s.setReg .r1 v).pc = s.pc := rfl
@[simp] theorem setReg_r1_lr (s : State) (v : Byte) : (s.setReg .r1 v).lr = s.lr := rfl
@[simp] theorem setReg_r2_r0 (s : State) (v : Byte) : (s.setReg .r2 v).r0 = s.r0 := rfl
@[simp] theorem setReg_r2_r1 (s : State) (v : Byte) : (s.setReg .r2 v).r1 = s.r1 := rfl
@[simp] theorem setReg_r2_r2 (s : State) (v : Byte) : (s.setReg .r2 v).r2 = v := rfl
@[simp] theorem setReg_r2_r3 (s : State) (v : Byte) : (s.setReg .r2 v).r3 = s.r3 := rfl
@[simp] theorem setReg_r2_cr (s : State) (v : Byte) : (s.setReg .r2 v).cr = s.cr := rfl
@[simp] theorem setReg_r2_flags (s : State) (v : Byte) : (s.setReg .r2 v).flags = s.flags := rfl
@[simp] theorem setReg_r2_pc (s : State) (v : Byte) : (s.setReg .r2 v).pc = s.pc := rfl
@[simp] theorem setReg_r2_lr (s : State) (v : Byte) : (s.setReg .r2 v).lr = s.lr := rfl
@[simp] theorem setReg_r3_r0 (s : State) (v : Byte) : (s.setReg .r3 v).r0 = s.r0 := rfl
@[simp] theorem setReg_r3_r1 (s : State) (v : Byte) : (s.setReg .r3 v).r1 = s.r1 := rfl
@[simp] theorem setReg_r3_r2 (s : State) (v : Byte) : (s.setReg .r3 v).r2 = s.r2 := rfl
@[simp] theorem setReg_r3_r3 (s : State) (v : Byte) : (s.setReg .r3 v).r3 = v := rfl
@[simp] theorem setReg_r3_cr (s : State) (v : Byte) : (s.setReg .r3 v).cr = s.cr := rfl
@[simp] theorem setReg_r3_flags (s : State) (v : Byte) : (s.setReg .r3 v).flags = s.flags := rfl
@[simp] theorem setReg_r3_pc (s : State) (v : Byte) : (s.setReg .r3 v).pc = s.pc := rfl
@[simp] theorem setReg_r3_lr (s : State) (v : Byte) : (s.setReg .r3 v).lr = s.lr := rfl
@[simp] theorem setReg_cr_r0 (s : State) (v : Byte) : (s.setReg .cr v).r0 = s.r0 := rfl
@[simp] theorem setReg_cr_r1 (s : State) (v : Byte) : (s.setReg .cr v).r1 = s.r1 := rfl
@[simp] theorem setReg_cr_r2 (s : State) (v : Byte) : (s.setReg .cr v).r2 = s.r2 := rfl
@[simp] theorem setReg_cr_r3 (s : State) (v : Byte) : (s.setReg .cr v).r3 = s.r3 := rfl
@[simp] theorem setReg_cr_cr (s : State) (v : Byte) : (s.setReg .cr v).cr = v := rfl
@[simp] theorem setReg_cr_flags (s : State) (v : Byte) : (s.setReg .cr v).flags = s.flags := rfl
@[simp] theorem setReg_cr_pc (s : State) (v : Byte) : (s.setReg .cr v).pc = s.pc := rfl
@[simp] theorem setReg_cr_lr (s : State) (v : Byte) : (s.setReg .cr v).lr = s.lr := rfl
@[simp] theorem setReg_flags_r0 (s : State) (v : Byte) : (s.setReg .flags v).r0 = s.r0 := rfl
@[simp] theorem setReg_flags_r1 (s : State) (v : Byte) : (s.setReg .flags v).r1 = s.r1 := rfl
@[simp] theorem setReg_flags_r2 (s : State) (v : Byte) : (s.setReg .flags v).r2 = s.r2 := rfl
@[simp] theorem setReg_flags_r3 (s : State) (v : Byte) : (s.setReg .flags v).r3 = s.r3 := rfl
@[simp] theorem setReg_flags_cr (s : State) (v : Byte) : (s.setReg .flags v).cr = s.cr := rfl
@[simp] theorem setReg_flags_flags (s : State) (v : Byte) : (s.setReg .flags v).flags = v := rfl
@[simp] theorem setReg_flags_pc (s : State) (v : Byte) : (s.setReg .flags v).pc = s.pc := rfl
@[simp] theorem setReg_flags_lr (s : State) (v : Byte) : (s.setReg .flags v).lr = s.lr := rfl
@[simp] theorem setReg_pc_r0 (s : State) (v : Byte) : (s.setReg .pc v).r0 = s.r0 := rfl
@[simp] theorem setReg_pc_r1 (s : State) (v : Byte) : (s.setReg .pc v).r1 = s.r1 := rfl
@[simp] theorem setReg_pc_r2 (s : State) (v : Byte) : (s.setReg .pc v).r2 = s.r2 := rfl
@[simp] theorem setReg_pc_r3 (s : State) (v : Byte) : (s.setReg .pc v).r3 = s.r3 := rfl
@[simp] theorem setReg_pc_cr (s : State) (v : Byte) : (s.setReg .pc v).cr = s.cr := rfl
@[simp] theorem setReg_pc_flags (s : State) (v : Byte) : (s.setReg .pc v).flags = s.flags := rfl
@[simp] theorem setReg_pc_pc (s : State) (v : Byte) : (s.setReg .pc v).pc = v := rfl
@[simp] theorem setReg_pc_lr (s : State) (v : Byte) : (s.setReg .pc v).lr = s.lr := rfl
@[simp] theorem setReg_lr_r0 (s : State) (v : Byte) : (s.setReg .lr v).r0 = s.r0 := rfl
@[simp] theorem setReg_lr_r1 (s : State) (v : Byte) : (s.setReg .lr v).r1 = s.r1 := rfl
@[simp] theorem setReg_lr_r2 (s : State) (v : Byte) : (s.setReg .lr v).r2 = s.r2 := rfl
@[simp] theorem setReg_lr_r3 (s : State) (v : Byte) : (s.setReg .lr v).r3 = s.r3 := rfl
@[simp] theorem setReg_lr_cr (s : State) (v : Byte) : (s.setReg .lr v).cr = s.cr := rfl
@[simp] theorem setReg_lr_flags (s : State) (v : Byte) : (s.setReg .lr v).flags = s.flags := rfl
@[simp] theorem setReg_lr_pc (s : State) (v : Byte) : (s.setReg .lr v).pc = s.pc := rfl
@[simp] theorem setReg_lr_lr (s : State) (v : Byte) : (s.setReg .lr v).lr = v := rfl

@[simp] theorem setReg_ram (s : State) (r : Reg) (v : Byte) : (s.setReg r v).ram = s.ram := by
  cases r <;> rfl

@[simp] theorem setReg_code (s : State) (r : Reg) (v : Byte) : (s.setReg r v).code = s.code := by
  cases r <;> rfl

@[simp] theorem setReg_freeIndex (s : State) (r : Reg) (v : Byte) : (s.setReg r v).freeIndex = s.freeIndex := by
  cases r <;> rfl

/-- Reading a register after writing one. -/
theorem reg_setReg (s : State) (r q : Reg) (v : Byte) :
    (s.setReg r v).reg q = if q = r then v else s.reg q := by
  cases r <;> cases q <;> rfl

@[simp] theorem setCodeCell_r0 (s : State) (a : Byte) (w : Word) : (s.setCodeCell a w).r0 = s.r0 := rfl
@[simp] theorem setCodeCell_r1 (s : State) (a : Byte) (w : Word) : (s.setCodeCell a w).r1 = s.r1 := rfl
@[simp] theorem setCodeCell_r2 (s : State) (a : Byte) (w : Word) : (s.setCodeCell a w).r2 = s.r2 := rfl
@[simp] theorem setCodeCell_r3 (s : State) (a : Byte) (w : Word) : (s.setCodeCell a w).r3 = s.r3 := rfl
@[simp] theorem setCodeCell_cr (s : State) (a : Byte) (w : Word) : (s.setCodeCell a w).cr = s.cr := rfl
@[simp] theorem setCodeCell_flags (s : State) (a : Byte) (w : Word) : (s.setCodeCell a w).flags = s.flags := rfl
@[simp] theorem setCodeCell_pc (s : State) (a : Byte) (w : Word) : (s.setCodeCell a w).pc = s.pc := rfl
@[simp] theorem setCodeCell_lr (s : State) (a : Byte) (w : Word) : (s.setCodeCell a w).lr = s.lr := rfl
@[simp] theorem setCodeCell_ram (s : State) (a : Byte) (w : Word) : (s.setCodeCell a w).ram = s.ram := rfl
@[simp] theorem setCodeCell_freeIndex (s : State) (a : Byte) (w : Word) : (s.setCodeCell a w).freeIndex = s.freeIndex := rfl
@[simp] theorem setCodeCell_code (s : State) (a : Byte) (w : Word) :
    (s.setCodeCell a w).code = Memory.insert s.code a.toNat w := rfl

@[simp] theorem advance_r0 (p : Config.Params) (s : State) : (s.advance p).r0 = s.r0 := rfl
@[simp] theorem advance_r1 (p : Config.Params) (s : State) : (s.advance p).r1 = s.r1 := rfl
@[simp] theorem advance_r2 (p : Config.Params) (s : State) : (s.advance p).r2 = s.r2 := rfl
@[simp] theorem advance_r3 (p : Config.Params) (s : State) : (s.advance p).r3 = s.r3 := rfl
@[simp] theorem advance_cr (p : Config.Params) (s : State) : (s.advance p).cr = s.cr := rfl
@[simp] theorem advance_flags (p : Config.Params) (s : State) : (s.advance p).flags = s.flags := rfl
@[simp] theorem advance_pc (p : Config.Params) (s : State) : (s.advance p).pc = s.pc + p.pcStep := rfl
@[simp] theorem advance_lr (p : Config.Params) (s : State) : (s.advance p).lr = s.lr := rfl
@[simp] theorem advance_ram (p : Config.Params) (s : State) : (s.advance p).ram = s.ram := rfl
@[simp] theorem advance_code (p : Config.Params) (s : State) : (s.advance p).code = s.code := rfl
@[simp] theorem advance_freeIndex (p : Config.Params) (s : State) : (s.advance p).freeIndex = s.freeIndex := rfl

@[simp] theorem launch_r0 (s : State) (c : CodeSpace) (m : Memory) : (s.launch c m).r0 = s.r0 := rfl
@[simp] theorem launch_r1 (s : State) (c : CodeSpace) (m : Memory) : (s.launch c m).r1 = s.r1 := rfl
@[simp] theorem launch_r2 (s : State) (c : CodeSpace) (m : Memory) : (s.launch c m).r2 = s.r2 := rfl
@[simp] theorem launch_r3 (s : State) (c : CodeSpace) (m : Memory) : (s.launch c m).r3 = s.r3 := rfl
@[simp] theorem launch_cr (s : State) (c : CodeSpace) (m : Memory) : (s.launch c m).cr = s.cr := rfl
@[simp] theorem launch_flags (s : State) (c : CodeSpace) (m : Memory) : (s.launch c m).flags = s.flags := rfl
@[simp] theorem launch_pc (s : State) (c : CodeSpace) (m : Memory) : (s.launch c m).pc = s.pc := rfl
@[simp] theorem launch_lr (s : State) (c : CodeSpace) (m : Memory) : (s.launch c m).lr = s.lr := rfl
@[simp] theorem launch_freeIndex (s : State) (c : CodeSpace) (m : Memory) : (s.launch c m).freeIndex = s.freeIndex := rfl
@[simp] theorem launch_code (s : State) (c : CodeSpace) (m : Memory) : (s.launch c m).code = c := rfl
@[simp] theorem launch_ram (s : State) (c : CodeSpace) (m : Memory) : (s.launch c m).ram = m := rfl

@[simp] theorem reg_r0 (s : State) : s.reg .r0 = s.r0 := rfl
@[simp] theorem reg_r1 (s : State) : s.reg .r1 = s.r1 := rfl
@[simp] theorem reg_r2 (s : State) : s.reg .r2 = s.r2 := rfl
@[simp] theorem reg_r3 (s : State) : s.reg .r3 = s.r3 := rfl
@[simp] theorem reg_cr (s : State) : s.reg .cr = s.cr := rfl
@[simp] theorem reg_flags (s : State) : s.reg .flags = s.flags := rfl
@[simp] theorem reg_pc (s : State) : s.reg .pc = s.pc := rfl
@[simp] theorem reg_lr (s : State) : s.reg .lr = s.lr := rfl

end Sys2Proof.Machine
end

