-- ==== Sys2Proof/Laws/Ops.lean ====
section
/-! SUPPORT. What each access primitive can do, said once: the register cells, read after write over the whole data
space, and, with the default parameters, that no access faults and how an instruction ends. -/

namespace Sys2Proof.Machine

open Sys2Proof.Config

/-- The first eight data addresses are the registers' addresses. -/
theorem regAt_eq_some {a : Byte} {r : Reg} : regAt a = some r ↔ a = regAddr r := by
  revert a; cases r <;> decide

@[simp] theorem regAt_regAddr (r : Reg) : regAt (regAddr r) = some r := by cases r <;> rfl

theorem regAt_eq_none {a : Byte} : regAt a = none ↔ 8 ≤ a.toNat := by revert a; decide

theorem regAddr_inj {r q : Reg} : regAddr r = regAddr q ↔ r = q := by
  cases r <;> cases q <;> decide

theorem gAddr_inj {b c : GReg} : gAddr b = gAddr c ↔ b = c := by cases b <;> cases c <;> decide

theorem gAddr_ne_pc (b : GReg) : gAddr b ≠ regAddr .pc := by cases b <;> decide

theorem gAddr_ne_flags (b : GReg) : gAddr b ≠ regAddr .flags := by cases b <;> decide

/-- A register and its data cell are one storage (R22). -/
@[simp] theorem cell_regAddr (s : State) (r : Reg) : s.cell (regAddr r) = s.reg r := by
  simp [State.cell]

@[simp] theorem setCell_regAddr (s : State) (r : Reg) (v : Byte) : s.setCell (regAddr r) v = s.setReg r v := by
  simp [State.setCell]

/-- Read after write over the whole data space, the registers included. -/
theorem cell_setCell (s : State) (a b v : Byte) :
    (s.setCell a v).cell b = if b = a then v else s.cell b := by
  simp only [State.setCell]
  cases ha : regAt a with
  | some r =>
    obtain rfl := regAt_eq_some.1 ha
    simp only [State.cell]
    cases hb : regAt b with
    | some q =>
      obtain rfl := regAt_eq_some.1 hb
      simp [reg_setReg, regAddr_inj]
    | none =>
      have : b ≠ regAddr r := fun h => by simp [h] at hb
      simp [this]
  | none =>
    simp only [State.cell]
    cases hb : regAt b with
    | some q =>
      have : b ≠ a := fun h => by simp_all
      simp only [this, if_false]
      cases q <;> rfl
    | none =>
      simp only [lookup_insert, BitVec.toNat_inj]
      split <;> rfl

@[simp] theorem setCell_code (s : State) (a v : Byte) : (s.setCell a v).code = s.code := by
  simp only [State.setCell]; split <;> simp

@[simp] theorem setCell_freeIndex (s : State) (a v : Byte) : (s.setCell a v).freeIndex = s.freeIndex := by
  simp only [State.setCell]; split <;> simp

/-- pc after a write of a data cell. -/
theorem setCell_pc (s : State) (a v : Byte) : (s.setCell a v).pc = if a = regAddr .pc then v else s.pc := by
  have h := cell_setCell s a (regAddr .pc) v
  simp only [cell_regAddr, reg_pc] at h
  rw [h]; simp [eq_comm]

/-- The other cells do not see pc advance. -/
theorem cell_advance (p : Params) (s : State) (a : Byte) :
    (s.advance p).cell a = if a = regAddr .pc then s.pc + p.pcStep else s.cell a := by
  simp only [State.cell]
  cases h : regAt a with
  | some r => obtain rfl := regAt_eq_some.1 h; cases r <;> simp [regAddr]
  | none =>
    have : a ≠ regAddr .pc := fun h' => by simp [h'] at h
    simp [this]

/-- With DATA_BYTES = 256 a read never faults (R51, R59). -/
@[simp] theorem read_params (s : State) (a : Byte) (k : Byte → Result) : s.read params a k = k (s.peek params a) := by
  simp [State.read, params, a.isLt]

/-- With CODE_WORDS = 256 a code read never faults (R59, R62). -/
@[simp] theorem codeRead_params (s : State) (a : Byte) (k : Word → Result) :
    s.codeRead params a k = k (s.codeCell a) := by
  simp [State.codeRead, params, a.isLt]

/-- With PC_READ_OFFSET = 0 a read of any cell gives its content (R34, R51). -/
@[simp] theorem peek_params (s : State) (a : Byte) : s.peek params a = s.cell a := by
  simp only [State.peek, params]
  split
  · subst_vars; simp
  · rfl

/-- With DATA_BYTES = 256 an instruction always ends in its writes (R36, R59). -/
@[simp] theorem commit_params (s : State) (ws : List Write) : s.commit params ws = .next (s.settle params ws) := by
  have : ws.find? (fun w => decide (params.dataBytes ≤ w.1.toNat)) = none := by
    simp only [List.find?_eq_none, decide_eq_true_eq]
    exact fun w _ => not_le.2 w.1.isLt
  simp [State.commit, this]

/-- What an instruction that schedules no write does: pc advances. -/
theorem settle_nil (p : Params) (s : State) : s.settle p [] = s.advance p := rfl

/-- What one scheduled write does. -/
theorem settle_one (p : Params) (s : State) (a v : Byte) :
    s.settle p [(a, v)] = if a = regAddr .pc then s.setCell a v else (s.advance p).setCell a v := by
  by_cases h : a = regAddr .pc <;> simp [State.settle, State.applyWrites, h]

/-- What two scheduled writes do. -/
theorem settle_two (p : Params) (s : State) (a v b u : Byte) :
    s.settle p [(a, v), (b, u)] =
      if a = regAddr .pc ∨ b = regAddr .pc then (s.setCell a v).setCell b u
      else ((s.advance p).setCell a v).setCell b u := by
  by_cases h : a = regAddr .pc <;> by_cases h' : b = regAddr .pc <;>
    simp [State.settle, State.applyWrites, h, h']

@[simp] theorem applyWrites_code (s : State) (ws : List Write) : (s.applyWrites ws).code = s.code := by
  induction ws generalizing s with
  | nil => rfl
  | cons w ws ih => simpa [State.applyWrites] using ih (s.setCell w.1 w.2)

@[simp] theorem applyWrites_freeIndex (s : State) (ws : List Write) :
    (s.applyWrites ws).freeIndex = s.freeIndex := by
  induction ws generalizing s with
  | nil => rfl
  | cons w ws ih => simpa [State.applyWrites] using ih (s.setCell w.1 w.2)

@[simp] theorem settle_code (p : Params) (s : State) (ws : List Write) : (s.settle p ws).code = s.code := by
  simp only [State.settle]; split <;> simp

@[simp] theorem settle_freeIndex (p : Params) (s : State) (ws : List Write) :
    (s.settle p ws).freeIndex = s.freeIndex := by
  simp only [State.settle]; split <;> simp

/-- Writes leave every cell they do not address. -/
theorem cell_applyWrites_of_notMem (s : State) (ws : List Write) (a : Byte) (h : ∀ w ∈ ws, w.1 ≠ a) :
    (s.applyWrites ws).cell a = s.cell a := by
  induction ws generalizing s with
  | nil => rfl
  | cons w ws ih =>
    have := ih (s.setCell w.1 w.2) fun u hu => h u (List.mem_cons_of_mem _ hu)
    simp only [State.applyWrites, List.foldl_cons] at this ⊢
    rw [this, cell_setCell, if_neg]
    exact fun h' => h w List.mem_cons_self h'.symm

/-- The end of an instruction leaves every cell but pc and the cells written. -/
theorem cell_settle_of_notMem (p : Params) (s : State) (ws : List Write) (a : Byte) (h : ∀ w ∈ ws, w.1 ≠ a)
    (hpc : a ≠ regAddr .pc) : (s.settle p ws).cell a = s.cell a := by
  simp only [State.settle]
  split
  · exact cell_applyWrites_of_notMem s ws a h
  · rw [cell_applyWrites_of_notMem _ ws a h, cell_advance, if_neg hpc]

/-- A write of a data cell keeps the canonical form (R20, R57). -/
theorem wf_setCell {s : State} (h : s.wf = true) (a v : Byte) : (s.setCell a v).wf = true := by
  simp only [State.wf, Bool.and_eq_true] at *
  simp only [State.setCell]
  split
  · simpa using h
  · rename_i ha
    exact ⟨wf_insert h.1 (regAt_eq_none.1 ha) a.isLt v, h.2⟩

/-- Loading a code cell keeps the canonical form. -/
theorem wf_setCodeCell {s : State} (h : s.wf = true) (a : Byte) (w : Word) : (s.setCodeCell a w).wf = true := by
  simp only [State.wf, Bool.and_eq_true] at *
  exact ⟨h.1, wf_insert h.2 (Nat.zero_le _) a.isLt w⟩

theorem wf_advance {s : State} (p : Params) (h : s.wf = true) : (s.advance p).wf = true := h

theorem wf_applyWrites {s : State} (h : s.wf = true) (ws : List Write) : (s.applyWrites ws).wf = true := by
  induction ws generalizing s with
  | nil => exact h
  | cons w ws ih => exact ih (wf_setCell h w.1 w.2)

/-- The end of an instruction keeps the canonical form. -/
theorem wf_settle {s : State} (p : Params) (h : s.wf = true) (ws : List Write) : (s.settle p ws).wf = true := by
  simp only [State.settle]
  split
  · exact wf_applyWrites h ws
  · exact wf_applyWrites (wf_advance p h) ws

/-- Reset lists nothing. -/
theorem wf_reset : State.reset.wf = true := rfl

/-- A launched image is canonical if its two lists are. -/
theorem wf_launch (s : State) {c : CodeSpace} {m : Memory} (hc : Memory.wf 0 256 c = true)
    (hm : Memory.wf 8 256 m = true) : (s.launch c m).wf = true := by
  simp [State.wf, hc, hm]

/-- The loaded word is the word fetched from that cell. -/
theorem codeCell_setCodeCell (s : State) (a b : Byte) (w : Word) :
    (s.setCodeCell a w).codeCell b = if b = a then w else s.codeCell b := by
  simp only [State.codeCell, setCodeCell_code, lookup_insert, BitVec.toNat_inj]
  split <;> rfl

end Sys2Proof.Machine
end

