-- ==== Sys2Proof/Laws/Meanings.lean ====
section
/-! SUPPORT. Each operand form and each shared meaning, said once: what it answers with the default parameters, as
the writes it ends with. A proof about an instruction cites its shared meaning's lemma here and then the laws of
State.settle in Laws/Ops.lean. -/

namespace Sys2Proof.Machine

open Sys2Proof.Config

@[simp] theorem withEa_params (s : State) (l : Loc) (k : Byte → Result) :
    s.withEa params l k = k (s.ea params l) := by
  cases l <;> simp [State.withEa]

@[simp] theorem withSrc_params (s : State) (src : Src) (k : Byte → Result) :
    s.withSrc params src k = k (s.operand params src) := by
  cases src <;> simp [State.withSrc, State.operand]

@[simp] theorem withCount_params (s : State) (n : Count) (k : Nat → Result) :
    s.withCount params n k = k (s.count params n) := by
  cases n <;> simp [State.withCount]

@[simp] theorem withCrCount_params (s : State) (k : Nat → Result) :
    s.withCrCount params k = k (regCount params s.cr) := by
  simp [State.withCrCount]

@[simp] theorem withLoadroWord_params (s : State) (b : GReg) (k : State → Word → Result) :
    s.withLoadroWord params b k = k s (s.codeCell (s.cell (gAddr b))) := by
  change s.read params (gAddr b) (fun a => s.codeRead params a (k s)) = _
  simp

@[simp] theorem draw_params (s : State) : s.draw params = s := rfl

@[simp] theorem arithFlagWrites_params (s : State) : arithFlagWrites params s = [] := rfl

@[simp] theorem arithFlagsByte_params (s : State) (own : List Flag) (v : Byte) :
    arithFlagsByte params s own v = v := rfl

@[simp] theorem commitArith_params (s : State) (ws : List Write) :
    s.commitArith params ws = .next (s.settle params ws) := by
  simp [State.commitArith]

/-- R110, R112. -/
theorem loadOp_params (r : Reg) (src : Src) (s : State) :
    loadOp params r src s = .next (s.settle params [(regAddr r, s.operand params src)]) := by
  simp [loadOp]

/-- R111, R113. -/
theorem storeOp_params (r : Reg) (dst : Loc) (s : State) :
    storeOp params r dst s = .next (s.settle params [(s.ea params dst, s.reg r)]) := by
  simp [storeOp]

/-- R130. -/
theorem mathOp_params (f : Byte → Byte → Byte) (b : GReg) (src : Src) (s : State) :
    mathOp params f b src s =
      .next (s.settle params [(gAddr b, f (s.cell (gAddr b)) (s.operand params src))]) := by
  simp [mathOp]

/-- R145. -/
theorem swapOp_params (b : GReg) (dst : Loc) (s : State) :
    swapOp params b dst s =
      .next (s.settle params [(s.ea params dst, s.cell (gAddr b)), (gAddr b, s.cell (s.ea params dst))]) := by
  simp [swapOp]

/-- R180. -/
theorem cmpOp_params (b : GReg) (src : Src) (s : State) :
    cmpOp params b src s =
      .next (s.settle params [(regAddr .flags, cmpFlags params s.flags (s.cell (gAddr b)) (s.operand params src))]) := by
  simp [cmpOp]

/-- R200. -/
theorem loopOp_params (b : GReg) (src : Src) (s : State) :
    loopOp params b src s =
      .next (s.settle params ((gAddr b, s.cell (gAddr b) - 1) ::
        if loopJumps params.loopTest (s.cell (gAddr b)) then [(regAddr .pc, s.operand params src)] else [])) := by
  simp [loopOp]

/-- R150 to R154. -/
theorem shiftOp_params (f : Byte → Nat → Byte) (b : GReg) (n : Count) (s : State) :
    shiftOp params f b n s =
      .next (s.settle params [(gAddr b, f (s.cell (gAddr b)) (s.count params n))]) := by
  simp [shiftOp]

/-- R150, R158 to R161. -/
theorem shiftCrOp_params (f : Byte → Nat → Byte) (b : GReg) (s : State) :
    shiftCrOp params f b s =
      .next (s.settle params [(gAddr b, f (s.cell (gAddr b)) (regCount params s.cr))]) := by
  simp [shiftCrOp]

/-- R155, R156. -/
theorem rotateCarryOp_params (f : Byte → Bool → Byte) (out : Byte → Bool) (b : GReg) (s : State) :
    rotateCarryOp params f out b s =
      .next (s.settle params
        [(gAddr b, f (s.cell (gAddr b)) (s.flag params .carry)),
         (regAddr .flags, withFlag params.flagBit s.flags .carry (out (s.cell (gAddr b))))]) := by
  simp [rotateCarryOp, State.flag]

/-- R162, R163. -/
theorem flagArithOp_params (f : Byte → Byte → Byte) (g : Flag) (b : GReg) (s : State) :
    flagArithOp params f g b s =
      .next (s.settle params [(gAddr b, f (s.cell (gAddr b)) (if s.flag params g then 1 else 0))]) := by
  simp only [flagArithOp, State.flag, read_params, peek_params, cell_regAddr, commitArith_params]
  rfl

/-- R164. -/
theorem execNeg_next (b : GReg) (s : State) :
    execNeg b s = .next (s.settle params [(gAddr b, 0 - s.cell (gAddr b))]) := by
  simp [execNeg]

/-- R165. -/
theorem loadroOp_params (b : GReg) (s : State) :
    loadroOp params b s = .next (s.settle params (pairWrites params (s.codeCell (s.cell (gAddr b))))) := by
  simp [loadroOp]

/-- R185. -/
theorem setflagsOp_params (mask val : BitVec 6) (s : State) :
    setflagsOp params mask val s =
      .next (s.settle params [(regAddr .flags, setflagsByte s.flags mask val)]) := by
  simp [setflagsOp]

/-- R190. -/
theorem branchOp_params (inv : Bool) (c : Cond) (d : Byte) (s : State) :
    branchOp params inv c d s =
      .next (s.settle params (if branchTest params.flagBit s.flags inv c then [(regAddr .pc, d)] else [])) := by
  simp [branchOp]

/-- R205. -/
theorem execMulConst_next (sg : Bool) (ms : GReg) (e : Byte) (s : State) :
    execMulConst sg ms e s = .next (s.settle params (pairWrites params (product sg (s.cell (gAddr ms)) e))) := by
  simp [execMulConst, mulOp]

/-- R205. -/
theorem execMulReg_next (sg : Bool) (ms : GReg) (r : Reg) (s : State) :
    execMulReg sg ms r s =
      .next (s.settle params (pairWrites params (product sg (s.cell (gAddr ms)) (s.reg r)))) := by
  simp [execMulReg, mulOp]

/-- One step is the meaning of the word at pc (R36). -/
theorem step_params (s : State) : step s = exec (decodeWord (s.codeCell s.pc)) s := by
  simp only [step, State.fetchDecode, codeRead_params]
  rfl

/-- The host's word is the word the next step fetches. -/
theorem step_withFetchWord (s : State) (nbits w : Nat) :
    step (s.withFetchWord nbits w) =
      exec (decodeWord (BitVec.ofNat 16 (w % 2 ^ nbits))) (s.withFetchWord nbits w) := by
  simp [step_params, State.withFetchWord, codeCell_setCodeCell]

end Sys2Proof.Machine
end

