-- ==== Sys2Proof/Laws/Exec.lean ====
section
/-! SUPPORT. Everything an instruction can do, said once: for each constructor the writes its meaning ends in
(exec_<constructor>), the six reserved rows' fault, and for all of them which cells those writes address. What the
writes then do is in the laws of State.settle, here and in Laws/Ops.lean. -/

namespace Sys2Proof.Machine

open Sys2Proof.Safety

/-- The pair r0:r1 is high byte first with the default PAIR_HIGH (R54). -/
@[simp] theorem pairWrites_params (v : Word) :
    pairWrites params v = [(regAddr .r0, v.extractLsb' 8 8), (regAddr .r1, v.extractLsb' 0 8)] := rfl

theorem sRegReg_eq_pc {x : SReg} : sRegReg x = .pc ↔ x = .pc := by cases x <;> decide

theorem gAddr_eq (b : GReg) : regAddr (gRegReg b) = gAddr b := rfl

theorem sAddr_eq (x : SReg) : regAddr (sRegReg x) = sAddr x := rfl

theorem sAddr_eq_pc {x : SReg} : sAddr x = regAddr .pc ↔ x = .pc := by cases x <;> decide

/-- storeOp_params with the stored register read as a cell. -/
theorem storeOp_cell (r : Reg) (dst : Loc) (s : State) :
    storeOp params r dst s = .next (s.settle params [(s.ea params dst, s.cell (regAddr r))]) := by
  rw [storeOp_params, cell_regAddr]

theorem exec_load0 (b : GReg) (src : Src) (s : State) :
    exec (.load0 b src) s = .next (s.settle params [(gAddr b, s.operand params src)]) :=
  loadOp_params _ _ _

theorem exec_store0 (b : GReg) (l : Loc) (s : State) :
    exec (.store0 b l) s = .next (s.settle params [(s.ea params l, s.cell (gAddr b))]) :=
  storeOp_cell _ _ _

theorem exec_add (b : GReg) (src : Src) (s : State) :
    exec (.add b src) s = .next (s.settle params [(gAddr b, s.cell (gAddr b) + s.operand params src)]) :=
  mathOp_params _ _ _ _

theorem exec_sub (b : GReg) (src : Src) (s : State) :
    exec (.sub b src) s = .next (s.settle params [(gAddr b, s.cell (gAddr b) - s.operand params src)]) :=
  mathOp_params _ _ _ _

theorem exec_and (b : GReg) (src : Src) (s : State) :
    exec (.and b src) s = .next (s.settle params [(gAddr b, s.cell (gAddr b) &&& s.operand params src)]) :=
  mathOp_params _ _ _ _

theorem exec_or (b : GReg) (src : Src) (s : State) :
    exec (.or b src) s = .next (s.settle params [(gAddr b, s.cell (gAddr b) ||| s.operand params src)]) :=
  mathOp_params _ _ _ _

theorem exec_xor (b : GReg) (src : Src) (s : State) :
    exec (.xor b src) s = .next (s.settle params [(gAddr b, s.cell (gAddr b) ^^^ s.operand params src)]) :=
  mathOp_params _ _ _ _

theorem exec_cmp (b : GReg) (src : Src) (s : State) :
    exec (.cmp b src) s = .next (s.settle params [(regAddr .flags, cmpFlags params s.flags (s.cell (gAddr b)) (s.operand params src))]) :=
  cmpOp_params _ _ _

theorem exec_load1 (x : SReg) (src : Src) (s : State) :
    exec (.load1 x src) s = .next (s.settle params [(sAddr x, s.operand params src)]) :=
  loadOp_params _ _ _

theorem exec_store1 (x : SReg) (l : Loc) (s : State) :
    exec (.store1 x l) s = .next (s.settle params [(s.ea params l, s.reg (sRegReg x))]) :=
  storeOp_params _ _ _

theorem exec_swap (b : GReg) (l : Loc) (s : State) :
    exec (.swap b l) s = .next (s.settle params [(s.ea params l, s.cell (gAddr b)), (gAddr b, s.cell (s.ea params l))]) :=
  swapOp_params _ _ _

theorem exec_loop (b : GReg) (src : Src) (s : State) :
    exec (.loop b src) s = .next (s.settle params ((gAddr b, s.cell (gAddr b) - 1) ::
      if loopJumps params.loopTest (s.cell (gAddr b)) then [(regAddr .pc, s.operand params src)] else [])) :=
  loopOp_params _ _ _

theorem exec_shlN (b : GReg) (n : Count) (s : State) :
    exec (.shlN b n) s = .next (s.settle params [(gAddr b, shl (s.cell (gAddr b)) (s.count params n))]) :=
  shiftOp_params _ _ _ _

theorem exec_shrN (b : GReg) (n : Count) (s : State) :
    exec (.shrN b n) s = .next (s.settle params [(gAddr b, shr params.shrFill (s.cell (gAddr b)) (s.count params n))]) :=
  shiftOp_params _ _ _ _

theorem exec_rolN (b : GReg) (n : Count) (s : State) :
    exec (.rolN b n) s = .next (s.settle params [(gAddr b, rol (s.cell (gAddr b)) (s.count params n))]) :=
  shiftOp_params _ _ _ _

theorem exec_rorN (b : GReg) (n : Count) (s : State) :
    exec (.rorN b n) s = .next (s.settle params [(gAddr b, ror (s.cell (gAddr b)) (s.count params n))]) :=
  shiftOp_params _ _ _ _

theorem exec_rolc (b : GReg) (s : State) :
    exec (.rolc b) s = .next (s.settle params [(gAddr b, rolcByte (s.cell (gAddr b)) (s.flag params .carry)),
      (regAddr .flags, withFlag params.flagBit s.flags .carry ((s.cell (gAddr b)).getLsbD 7))]) :=
  rotateCarryOp_params rolcByte (fun v => v.getLsbD 7) b s

theorem exec_rorc (b : GReg) (s : State) :
    exec (.rorc b) s = .next (s.settle params [(gAddr b, rorcByte (s.cell (gAddr b)) (s.flag params .carry)),
      (regAddr .flags, withFlag params.flagBit s.flags .carry ((s.cell (gAddr b)).getLsbD 0))]) :=
  rotateCarryOp_params rorcByte (fun v => v.getLsbD 0) b s

theorem exec_shlCr (b : GReg) (s : State) :
    exec (.shlCr b) s = .next (s.settle params [(gAddr b, shl (s.cell (gAddr b)) (regCount params s.cr))]) :=
  shiftCrOp_params _ _ _

theorem exec_shrCr (b : GReg) (s : State) :
    exec (.shrCr b) s = .next (s.settle params [(gAddr b, shr params.shrFill (s.cell (gAddr b)) (regCount params s.cr))]) :=
  shiftCrOp_params _ _ _

theorem exec_rolCr (b : GReg) (s : State) :
    exec (.rolCr b) s = .next (s.settle params [(gAddr b, rol (s.cell (gAddr b)) (regCount params s.cr))]) :=
  shiftCrOp_params _ _ _

theorem exec_rorCr (b : GReg) (s : State) :
    exec (.rorCr b) s = .next (s.settle params [(gAddr b, ror (s.cell (gAddr b)) (regCount params s.cr))]) :=
  shiftCrOp_params _ _ _

theorem exec_adc (b : GReg) (s : State) :
    exec (.adc b) s = .next (s.settle params [(gAddr b, s.cell (gAddr b) + if s.flag params .carry then 1 else 0)]) :=
  flagArithOp_params _ _ _ _

theorem exec_sbm (b : GReg) (s : State) :
    exec (.sbm b) s = .next (s.settle params [(gAddr b, s.cell (gAddr b) - if s.flag params .minus then 1 else 0)]) :=
  flagArithOp_params _ _ _ _

theorem exec_neg (b : GReg) (s : State) :
    exec (.neg b) s = .next (s.settle params [(gAddr b, 0 - s.cell (gAddr b))]) :=
  execNeg_next _ _

theorem exec_loadro (b : GReg) (s : State) :
    exec (.loadro b) s = .next (s.settle params (pairWrites params (s.codeCell (s.cell (gAddr b))))) :=
  loadroOp_params _ _

theorem exec_setflags (mask val : BitVec 6) (s : State) :
    exec (.setflags mask val) s = .next (s.settle params [(regAddr .flags, setflagsByte s.flags mask val)]) :=
  setflagsOp_params _ _ _

theorem exec_blt (d : Byte) (s : State) :
    exec (.blt d) s = .next (s.settle params (if branchTest params.flagBit s.flags false .lt then [(regAddr .pc, d)] else [])) :=
  branchOp_params _ _ _ _

theorem exec_bgt (d : Byte) (s : State) :
    exec (.bgt d) s = .next (s.settle params (if branchTest params.flagBit s.flags false .gt then [(regAddr .pc, d)] else [])) :=
  branchOp_params _ _ _ _

theorem exec_beq (d : Byte) (s : State) :
    exec (.beq d) s = .next (s.settle params (if branchTest params.flagBit s.flags false .eq then [(regAddr .pc, d)] else [])) :=
  branchOp_params _ _ _ _

theorem exec_bca (d : Byte) (s : State) :
    exec (.bca d) s = .next (s.settle params (if branchTest params.flagBit s.flags false .ca then [(regAddr .pc, d)] else [])) :=
  branchOp_params _ _ _ _

theorem exec_bmi (d : Byte) (s : State) :
    exec (.bmi d) s = .next (s.settle params (if branchTest params.flagBit s.flags false .mi then [(regAddr .pc, d)] else [])) :=
  branchOp_params _ _ _ _

theorem exec_bxt1 (d : Byte) (s : State) :
    exec (.bxt1 d) s = .next (s.settle params (if branchTest params.flagBit s.flags false .xt1 then [(regAddr .pc, d)] else [])) :=
  branchOp_params _ _ _ _

theorem exec_bxt2 (d : Byte) (s : State) :
    exec (.bxt2 d) s = .next (s.settle params (if branchTest params.flagBit s.flags false .xt2 then [(regAddr .pc, d)] else [])) :=
  branchOp_params _ _ _ _

theorem exec_bxt3 (d : Byte) (s : State) :
    exec (.bxt3 d) s = .next (s.settle params (if branchTest params.flagBit s.flags false .xt3 then [(regAddr .pc, d)] else [])) :=
  branchOp_params _ _ _ _

theorem exec_bgte (d : Byte) (s : State) :
    exec (.bgte d) s = .next (s.settle params (if branchTest params.flagBit s.flags true .lt then [(regAddr .pc, d)] else [])) :=
  branchOp_params _ _ _ _

theorem exec_blte (d : Byte) (s : State) :
    exec (.blte d) s = .next (s.settle params (if branchTest params.flagBit s.flags true .gt then [(regAddr .pc, d)] else [])) :=
  branchOp_params _ _ _ _

theorem exec_bne (d : Byte) (s : State) :
    exec (.bne d) s = .next (s.settle params (if branchTest params.flagBit s.flags true .eq then [(regAddr .pc, d)] else [])) :=
  branchOp_params _ _ _ _

theorem exec_bnc (d : Byte) (s : State) :
    exec (.bnc d) s = .next (s.settle params (if branchTest params.flagBit s.flags true .ca then [(regAddr .pc, d)] else [])) :=
  branchOp_params _ _ _ _

theorem exec_bnm (d : Byte) (s : State) :
    exec (.bnm d) s = .next (s.settle params (if branchTest params.flagBit s.flags true .mi then [(regAddr .pc, d)] else [])) :=
  branchOp_params _ _ _ _

theorem exec_bnx1 (d : Byte) (s : State) :
    exec (.bnx1 d) s = .next (s.settle params (if branchTest params.flagBit s.flags true .xt1 then [(regAddr .pc, d)] else [])) :=
  branchOp_params _ _ _ _

theorem exec_bnx2 (d : Byte) (s : State) :
    exec (.bnx2 d) s = .next (s.settle params (if branchTest params.flagBit s.flags true .xt2 then [(regAddr .pc, d)] else [])) :=
  branchOp_params _ _ _ _

theorem exec_bnx3 (d : Byte) (s : State) :
    exec (.bnx3 d) s = .next (s.settle params (if branchTest params.flagBit s.flags true .xt3 then [(regAddr .pc, d)] else [])) :=
  branchOp_params _ _ _ _

theorem exec_mulConst (sg : Bool) (ms : GReg) (e : Byte) (s : State) :
    exec (.mulConst sg ms e) s = .next (s.settle params (pairWrites params (product sg (s.cell (gAddr ms)) e))) :=
  execMulConst_next _ _ _ _

theorem exec_mulReg (sg : Bool) (ms : GReg) (r : Reg) (s : State) :
    exec (.mulReg sg ms r) s = .next (s.settle params (pairWrites params (product sg (s.cell (gAddr ms)) (s.reg r)))) :=
  execMulReg_next _ _ _ _

/-- The six reserved rows (R93). -/
theorem exec_reserved {i : Instr} (h : isReserved i = true) (s : State) :
    exec i s = .fault (.reservedEncoding (encode i) s.pc) := by
  cases i <;> first | rfl | cases h

/-- What `i` may have scheduled in state `s`: only pc and the cells listed for it, and pc only where it is a control
transfer (R35). -/
def Schedules (i : Instr) (s : State) (ws : List Write) : Prop :=
  (∀ w ∈ ws, w.1 ∈ regAddr .pc :: writableCells i s) ∧ (¬ WritesPc i s → ∀ w ∈ ws, w.1 ≠ regAddr .pc)

/-- The inversion of exec. -/
theorem exec_settles_or_reserved (i : Instr) (s : State) :
    (isReserved i = false ∧ ∃ ws, exec i s = .next (s.settle params ws) ∧ Schedules i s ws) ∨
      (isReserved i = true ∧ exec i s = .fault (.reservedEncoding (encode i) s.pc)) := by
  cases i
  all_goals first
    | exact .inr ⟨rfl, rfl⟩
    | (left; refine ⟨rfl, ?_⟩)
  all_goals
    simp only [exec_load0, exec_store0, exec_add, exec_sub, exec_and, exec_or, exec_xor, exec_cmp, exec_load1, exec_store1,
      exec_swap, exec_loop, exec_shlN, exec_shrN, exec_rolN, exec_rorN, exec_rolc, exec_rorc, exec_shlCr,
      exec_shrCr, exec_rolCr, exec_rorCr, exec_adc, exec_sbm, exec_neg, exec_loadro, exec_setflags, exec_blt,
      exec_bgt, exec_beq, exec_bca, exec_bmi, exec_bxt1, exec_bxt2, exec_bxt3, exec_bgte, exec_blte, exec_bne,
      exec_bnc, exec_bnm, exec_bnx1, exec_bnx2, exec_bnx3, exec_mulConst, exec_mulReg, pairWrites_params]
    refine ⟨_, rfl, ?_, ?_⟩
  all_goals first
    | (split <;> simp_all [writableCells, WritesPc, gAddr_ne_pc])
    | simp_all [writableCells, WritesPc, gAddr_ne_pc, sAddr_eq_pc, regAddr_inj]

/-- An instruction that completes ends in writes it may schedule. -/
theorem exec_next {i : Instr} {s t : State} (h : exec i s = .next t) :
    ∃ ws, t = s.settle params ws ∧ Schedules i s ws := by
  rcases exec_settles_or_reserved i s with ⟨-, ws, h2, h3⟩ | ⟨-, h2⟩
  · rw [h] at h2; cases h2; exact ⟨ws, rfl, h3⟩
  · rw [h] at h2; cases h2

/-- A cell that a single write addresses, pc among them, takes the value written. -/
@[simp] theorem settle_one_cell (s : State) (a v : Byte) : (s.settle params [(a, v)]).cell a = v := by
  rw [settle_one]; split <;> simp [cell_setCell]

/-- pc after an instruction that does not write it (R38). -/
theorem settle_pc (s : State) (ws : List Write) (h : ∀ w ∈ ws, w.1 ≠ regAddr .pc) :
    (s.settle params ws).pc = s.pc + 1 := by
  have hany : ws.any (fun w => w.1 = regAddr .pc) = false := by simpa using h
  have hcell := cell_applyWrites_of_notMem (s.advance params) ws (regAddr .pc) h
  simp only [cell_regAddr, reg_pc, advance_pc] at hcell
  simp only [State.settle, hany]
  exact hcell

/-- The frame of an instruction's end: what is not written, and is not pc, stays. -/
theorem sameBut_settle (s : State) (ws : List Write) (cells : List Byte) (hws : ∀ w ∈ ws, w.1 ∈ cells)
    (hpc : regAddr .pc ∈ cells) : SameBut cells s (s.settle params ws) := by
  refine ⟨fun c hc => cell_settle_of_notMem _ _ _ _ ?_ ?_, settle_code _ _ _, settle_freeIndex _ _ _⟩
  · rintro w hw rfl; exact hc (hws w hw)
  · rintro rfl; exact hc hpc

/-- A rotate through carry: register, flags and pc after its two writes. -/
theorem settle_register_flags (s : State) (b : GReg) (v f : Byte) :
    let t := s.settle params [(gAddr b, v), (regAddr .flags, f)]
    t.cell (gAddr b) = v ∧ t.flags = f ∧ t.pc = s.pc + 1 := by
  intro t
  have e : t = ((s.advance params).setCell (gAddr b) v).setCell (regAddr .flags) f := by
    simp only [t]; rw [settle_two, if_neg]; simp [gAddr_ne_pc, regAddr_inj]
  rw [e]
  refine ⟨?_, by simp, ?_⟩
  · simp only [cell_setCell, if_neg (gAddr_ne_flags b), if_true]
  · cases b <;> simp [gAddr, gRegReg, params]

/-- A 16-bit result: the pair, pc and the frame (R54). -/
theorem settle_pair (s : State) (v : Word) :
    let t := s.settle params (pairWrites params v)
    t.r0 = v.extractLsb' 8 8 ∧ t.r1 = v.extractLsb' 0 8 ∧ t.pc = s.pc + 1 ∧
      SameBut [regAddr .r0, regAddr .r1, regAddr .pc] s t := by
  intro t
  have e : t = ((s.advance params).setCell (regAddr .r0) (v.extractLsb' 8 8)).setCell (regAddr .r1)
      (v.extractLsb' 0 8) := by
    simp only [t]; rw [pairWrites_params, settle_two, if_neg]; simp [regAddr_inj]
  refine ⟨?_, ?_, ?_, sameBut_settle _ _ _ (by simp) (by simp)⟩ <;> rw [e] <;> simp [params]

/-- isHalted asks whether the step gives the same state (R255). -/
theorem isHalted_iff (s : State) : s.isHalted = true ↔ step s = .next s := by
  simp only [State.isHalted]
  split <;> simp_all

/-- With the default parameters no step is refused. -/
theorem step_not_refused (s : State) (r : Refusal) : step s ≠ .refused r := by
  rw [step_params]
  rcases exec_settles_or_reserved (decodeWord (s.codeCell s.pc)) s with ⟨-, _, h, -⟩ | ⟨-, h⟩ <;> simp [h]

end Sys2Proof.Machine
end

