-- ==== Sys2Proof/Laws/PerInstr.lean ====
section
/-! SUPPORT. Statements about every instruction, one lemma per constructor. OpcodeField: the encoder puts the opcode
number that the opcode table gives the instruction's row into the top four bits of its word (R77). -/

namespace Sys2Proof.Laws.OpcodeField

open Sys2Proof

/-- The opcode number of each row of the opcode table (R77). -/
def opcodeOf : Instr → BitVec 4
  | .load0 _ _ => 0
  | .store0 _ _ => 1
  | .store0Reserved _ _ => 1
  | .add _ _ => 2
  | .sub _ _ => 3
  | .and _ _ => 4
  | .or _ _ => 5
  | .xor _ _ => 6
  | .cmp _ _ => 7
  | .load1 _ _ => 8
  | .store1 _ _ => 9
  | .store1Reserved _ _ => 9
  | .swap _ _ => 10
  | .swapReserved _ _ => 10
  | .loop _ _ => 11
  | .shlN _ _ => 12
  | .shrN _ _ => 12
  | .rolN _ _ => 12
  | .rorN _ _ => 12
  | .rolc _ => 12
  | .rorc _ => 12
  | .unary6Reserved _ _ _ => 12
  | .unary7Reserved _ _ _ => 12
  | .shlCr _ => 12
  | .shrCr _ => 12
  | .rolCr _ => 12
  | .rorCr _ => 12
  | .adc _ => 12
  | .sbm _ => 12
  | .neg _ => 12
  | .loadro _ => 12
  | .setflags _ _ => 13
  | .blt _ => 14
  | .bgt _ => 14
  | .beq _ => 14
  | .bca _ => 14
  | .bmi _ => 14
  | .bxt1 _ => 14
  | .bxt2 _ => 14
  | .bxt3 _ => 14
  | .bgte _ => 14
  | .blte _ => 14
  | .bne _ => 14
  | .bnc _ => 14
  | .bnm _ => 14
  | .bnx1 _ => 14
  | .bnx2 _ => 14
  | .bnx3 _ => 14
  | .mulConst _ _ _ => 15
  | .mulReg _ _ _ => 15
  | .mulReserved _ _ _ => 15

def Statement (i : Instr) : Prop := (encode i).extractLsb' 12 4 = opcodeOf i

theorem load0 (b : GReg) (src : Src) : Statement (.load0 b src) := formatA_op ..
theorem store0 (b : GReg) (l : Loc) : Statement (.store0 b l) := formatA_op ..
theorem store0Reserved (b : GReg) (d : Byte) : Statement (.store0Reserved b d) := formatA_op ..
theorem add (b : GReg) (src : Src) : Statement (.add b src) := formatA_op ..
theorem sub (b : GReg) (src : Src) : Statement (.sub b src) := formatA_op ..
theorem and (b : GReg) (src : Src) : Statement (.and b src) := formatA_op ..
theorem or (b : GReg) (src : Src) : Statement (.or b src) := formatA_op ..
theorem xor (b : GReg) (src : Src) : Statement (.xor b src) := formatA_op ..
theorem cmp (b : GReg) (src : Src) : Statement (.cmp b src) := formatA_op ..
theorem load1 (x : SReg) (src : Src) : Statement (.load1 x src) := formatA_op ..
theorem store1 (x : SReg) (l : Loc) : Statement (.store1 x l) := formatA_op ..
theorem store1Reserved (x : SReg) (d : Byte) : Statement (.store1Reserved x d) := formatA_op ..
theorem swap (b : GReg) (l : Loc) : Statement (.swap b l) := formatA_op ..
theorem swapReserved (b : GReg) (d : Byte) : Statement (.swapReserved b d) := formatA_op ..
theorem loop (b : GReg) (src : Src) : Statement (.loop b src) := formatA_op ..
theorem shlN (b : GReg) (n : Count) : Statement (.shlN b n) := formatB_op ..
theorem shrN (b : GReg) (n : Count) : Statement (.shrN b n) := formatB_op ..
theorem rolN (b : GReg) (n : Count) : Statement (.rolN b n) := formatB_op ..
theorem rorN (b : GReg) (n : Count) : Statement (.rorN b n) := formatB_op ..
theorem rolc (b : GReg) : Statement (.rolc b) := formatB_op ..
theorem rorc (b : GReg) : Statement (.rorc b) := formatB_op ..
theorem unary6Reserved (b : GReg) (xx : BitVec 2) (arg : BitVec 4) : Statement (.unary6Reserved b xx arg) := formatB_op ..
theorem unary7Reserved (b : GReg) (xx : BitVec 2) (arg : BitVec 4) : Statement (.unary7Reserved b xx arg) := formatB_op ..
theorem shlCr (b : GReg) : Statement (.shlCr b) := formatB_op ..
theorem shrCr (b : GReg) : Statement (.shrCr b) := formatB_op ..
theorem rolCr (b : GReg) : Statement (.rolCr b) := formatB_op ..
theorem rorCr (b : GReg) : Statement (.rorCr b) := formatB_op ..
theorem adc (b : GReg) : Statement (.adc b) := formatB_op ..
theorem sbm (b : GReg) : Statement (.sbm b) := formatB_op ..
theorem neg (b : GReg) : Statement (.neg b) := formatB_op ..
theorem loadro (b : GReg) : Statement (.loadro b) := formatB_op ..
theorem setflags (mask : BitVec 6) (val : BitVec 6) : Statement (.setflags mask val) := formatC_op ..
theorem blt (d : Byte) : Statement (.blt d) := formatD_op ..
theorem bgt (d : Byte) : Statement (.bgt d) := formatD_op ..
theorem beq (d : Byte) : Statement (.beq d) := formatD_op ..
theorem bca (d : Byte) : Statement (.bca d) := formatD_op ..
theorem bmi (d : Byte) : Statement (.bmi d) := formatD_op ..
theorem bxt1 (d : Byte) : Statement (.bxt1 d) := formatD_op ..
theorem bxt2 (d : Byte) : Statement (.bxt2 d) := formatD_op ..
theorem bxt3 (d : Byte) : Statement (.bxt3 d) := formatD_op ..
theorem bgte (d : Byte) : Statement (.bgte d) := formatD_op ..
theorem blte (d : Byte) : Statement (.blte d) := formatD_op ..
theorem bne (d : Byte) : Statement (.bne d) := formatD_op ..
theorem bnc (d : Byte) : Statement (.bnc d) := formatD_op ..
theorem bnm (d : Byte) : Statement (.bnm d) := formatD_op ..
theorem bnx1 (d : Byte) : Statement (.bnx1 d) := formatD_op ..
theorem bnx2 (d : Byte) : Statement (.bnx2 d) := formatD_op ..
theorem bnx3 (d : Byte) : Statement (.bnx3 d) := formatD_op ..
theorem mulConst (sg : Bool) (ms : GReg) (e : Byte) : Statement (.mulConst sg ms e) := formatE_op ..
theorem mulReg (sg : Bool) (ms : GReg) (r : Reg) : Statement (.mulReg sg ms r) := formatE_op ..
theorem mulReserved (sg : Bool) (ms : GReg) (e : Byte) : Statement (.mulReserved sg ms e) := formatE_op ..

end Sys2Proof.Laws.OpcodeField
end

