-- ==== Sys2Proof/Tests/Slice0.lean ====
section
/-! SUPPORT. Tests of the model. Expected results are taken from the spec: the words from the encodings of
30_encoding.md and the decode checks of 95_test_vectors.md section 4, the steps from its vectors V1 to V117. The last
part meets the hypotheses of the statements with concrete values. -/

namespace Sys2Proof.Tests

open Sys2Proof Sys2Proof.Config Sys2Proof.Machine Sys2Proof.Safety

/-! ### Well-formedness: an ill-formed term for each check -/

theorem wellFormed_refuses_mul_index_below_8 : (Instr.mulReserved false .r0 0x07).wellFormed = false := by decide
theorem wellFormed_admits_mul_index_8 : (Instr.mulReserved false .r0 0x08).wellFormed = true := by decide
theorem injective_refuses_a_shared_bit :
    FlagLayout.injective { flagBitDefault with carry := 1 } = false := by decide
theorem params_wellFormed : params.wellFormed = true := by decide
theorem params_refuse_dataBytes_7 : Params.wellFormed { params with dataBytes := 7 } = false := by decide
theorem params_refuse_dataBytes_257 : Params.wellFormed { params with dataBytes := 257 } = false := by decide
theorem params_refuse_codeWords_257 : Params.wellFormed { params with codeWords := 257 } = false := by decide
theorem params_refuse_count_bits_2 : Params.wellFormed { params with shiftCountBits := 2 } = false := by decide
theorem params_refuse_count_bits_9 : Params.wellFormed { params with shiftCountBits := 9 } = false := by decide
theorem params_refuse_a_shared_flag_bit :
    Params.wellFormed { params with flagBit := { flagBitDefault with xtra3 := 4 } } = false := by decide
theorem params_refuse_overlapping_mul_fields :
    Params.wellFormed { params with mulLayout := { mulLayoutDefault with ms := 10 } } = false := by decide
theorem params_refuse_a_mul_field_in_the_opcode :
    Params.wellFormed { params with mulLayout := { mulLayoutDefault with sg := 12 } } = false := by decide

/-! ### Decoding: one word for each constructor, written out field by field -/

theorem decode_load0 : decodeTableWord 16 0b0000_00_10_00001010 = some (.load0 .r0 (.cell (.r0Rel 0x0A))) := by decide
theorem decode_store0 : decodeTableWord 16 0b0001_00_11_00000000 = some (.store0 .r0 (.r1Rel 0x00)) := by decide
theorem decode_store0Reserved : decodeTableWord 16 0b0001_00_00_00010010 = some (.store0Reserved .r0 0x12) := by decide
theorem decode_add : decodeTableWord 16 0b0010_00_10_00001010 = some (.add .r0 (.cell (.r0Rel 0x0A))) := by decide
theorem decode_sub : decodeTableWord 16 0b0011_01_00_00000101 = some (.sub .r1 (.const 0x05)) := by decide
theorem decode_and : decodeTableWord 16 0b0100_00_00_00001111 = some (.and .r0 (.const 0x0F)) := by decide
theorem decode_or : decodeTableWord 16 0b0101_10_00_10000000 = some (.or .r2 (.const 0x80)) := by decide
theorem decode_xor : decodeTableWord 16 0b0110_11_00_11111111 = some (.xor .r3 (.const 0xFF)) := by decide
theorem decode_cmp : decodeTableWord 16 0b0111_00_10_00001010 = some (.cmp .r0 (.cell (.r0Rel 0x0A))) := by decide
theorem decode_load1 : decodeTableWord 16 0b1000_10_01_00000111 = some (.load1 .pc (.cell (.abs 0x07))) := by decide
theorem decode_store1 : decodeTableWord 16 0b1001_11_01_00110000 = some (.store1 .lr (.abs 0x30)) := by decide
theorem decode_store1Reserved : decodeTableWord 16 0b1001_00_00_00000000 = some (.store1Reserved .cr 0x00) := by decide
theorem decode_swap : decodeTableWord 16 0b1010_01_01_00100000 = some (.swap .r1 (.abs 0x20)) := by decide
theorem decode_swapReserved : decodeTableWord 16 0b1010_00_00_11111111 = some (.swapReserved .r0 0xFF) := by decide
theorem decode_loop : decodeTableWord 16 0b1011_11_00_00000011 = some (.loop .r3 (.const 0x03)) := by decide
theorem decode_shlN : decodeTableWord 16 0b1100_00_00_0000_0001 = some (.shlN .r0 (.imm 1)) := by decide
theorem decode_shrN : decodeTableWord 16 0b1100_01_00_0001_0011 = some (.shrN .r1 (.imm 3)) := by decide
theorem decode_rolN : decodeTableWord 16 0b1100_10_00_0010_0100 = some (.rolN .r2 (.imm 4)) := by decide
theorem decode_rorN : decodeTableWord 16 0b1100_11_00_0011_0001 = some (.rorN .r3 (.imm 1)) := by decide
theorem decode_rolc : decodeTableWord 16 0b1100_00_00_0100_0000 = some (.rolc .r0) := by decide
theorem decode_rorc : decodeTableWord 16 0b1100_01_00_0101_0000 = some (.rorc .r1) := by decide
theorem decode_unary6Reserved : decodeTableWord 16 0b1100_00_00_0110_0000 = some (.unary6Reserved .r0 0 0) := by decide
theorem decode_unary7Reserved : decodeTableWord 16 0b1100_01_00_0111_1111 = some (.unary7Reserved .r1 0 0xF) := by
  decide
theorem decode_shlCr : decodeTableWord 16 0b1100_00_00_1000_0000 = some (.shlCr .r0) := by decide
theorem decode_shrCr : decodeTableWord 16 0b1100_01_00_1001_0000 = some (.shrCr .r1) := by decide
theorem decode_rolCr : decodeTableWord 16 0b1100_10_00_1010_0000 = some (.rolCr .r2) := by decide
theorem decode_rorCr : decodeTableWord 16 0b1100_11_00_1011_0000 = some (.rorCr .r3) := by decide
theorem decode_adc : decodeTableWord 16 0b1100_00_00_1100_0000 = some (.adc .r0) := by decide
theorem decode_sbm : decodeTableWord 16 0b1100_01_00_1101_0000 = some (.sbm .r1) := by decide
theorem decode_neg : decodeTableWord 16 0b1100_00_00_1110_0000 = some (.neg .r0) := by decide
theorem decode_loadro : decodeTableWord 16 0b1100_10_00_1111_0000 = some (.loadro .r2) := by decide
theorem decode_setflags : decodeTableWord 16 0b1101_111111_000101 = some (.setflags 0x3F 0x05) := by decide
theorem decode_blt : decodeTableWord 16 0b1110_0_000_01000000 = some (.blt 0x40) := by decide
theorem decode_bgt : decodeTableWord 16 0b1110_0_001_01000000 = some (.bgt 0x40) := by decide
theorem decode_beq : decodeTableWord 16 0b1110_0_010_01000000 = some (.beq 0x40) := by decide
theorem decode_bca : decodeTableWord 16 0b1110_0_011_01000000 = some (.bca 0x40) := by decide
theorem decode_bmi : decodeTableWord 16 0b1110_0_100_01000000 = some (.bmi 0x40) := by decide
theorem decode_bxt1 : decodeTableWord 16 0b1110_0_101_01000000 = some (.bxt1 0x40) := by decide
theorem decode_bxt2 : decodeTableWord 16 0b1110_0_110_01000000 = some (.bxt2 0x40) := by decide
theorem decode_bxt3 : decodeTableWord 16 0b1110_0_111_01000000 = some (.bxt3 0x40) := by decide
theorem decode_bgte : decodeTableWord 16 0b1110_1_000_01000000 = some (.bgte 0x40) := by decide
theorem decode_blte : decodeTableWord 16 0b1110_1_001_01000000 = some (.blte 0x40) := by decide
theorem decode_bne : decodeTableWord 16 0b1110_1_010_01000000 = some (.bne 0x40) := by decide
theorem decode_bnc : decodeTableWord 16 0b1110_1_011_01000000 = some (.bnc 0x40) := by decide
theorem decode_bnm : decodeTableWord 16 0b1110_1_100_01000000 = some (.bnm 0x40) := by decide
theorem decode_bnx1 : decodeTableWord 16 0b1110_1_101_01000000 = some (.bnx1 0x40) := by decide
theorem decode_bnx2 : decodeTableWord 16 0b1110_1_110_01000000 = some (.bnx2 0x40) := by decide
theorem decode_bnx3 : decodeTableWord 16 0b1110_1_111_01000000 = some (.bnx3 0x40) := by decide
theorem decode_mulConst : decodeTableWord 16 0b1111_0_10_1_01100100 = some (.mulConst false .r2 0x64) := by decide
theorem decode_mulReg : decodeTableWord 16 0b1111_0_01_0_00000011 = some (.mulReg false .r1 .r3) := by decide
theorem decode_mulReserved : decodeTableWord 16 0b1111_0_00_0_00001000 = some (.mulReserved false .r0 0x08) := by decide

theorem decode_register_count : decodeTableWord 16 0b1100_00_00_0000_1_0_10 = some (.shlN .r0 (.reg .r2)) := by decide
theorem decode_mul_signed : decodeTableWord 16 0b1111_1_11_1_11111111 = some (.mulConst true .r3 0xFF) := by decide
theorem decode_ignores_unused_bits : decodeTableWord 16 0b1100_00_11_0000_0001 = some (.shlN .r0 (.imm 1)) := by decide
theorem decode_refuses_unused_bits_on_request :
    decode { params with dontCare := .mustBeZero } 0xC301 = none := by decide

/-! ### Steps -/

/-- A state at pc 0x10 with word `w` there, as the vectors take it; every other register is zero. -/
def at10 (w : Word) : State := { State.reset with pc := 0x10, code := [(0x10, w)] }

/-- The state a result goes on in, if it does. -/
def after : Result → Option State
  | .next t => some t
  | _ => none

/-- The fault a result stops with, if it does. -/
def stop : Result → Option Fault
  | .fault f => some f
  | _ => none

/-- The step of `w` at 0x10 from the state `before` changes exactly what `change` changes. -/
def stepsTo (w : Word) (before change : State → State) : Bool :=
  after (step (before (at10 w))) = some (change (before (at10 w)))

/-- V1 -/
theorem test_load0_r0_relative : stepsTo 0x020A (fun s => { s with r0 := 0x20, ram := [(0x2A, 0x77)] })
    (fun s => { s with r0 := 0x77, pc := 0x11 }) = true := by decide

/-- V5 -/
theorem test_load0_address_wraps : stepsTo 0x0F10 (fun s => { s with r1 := 0xF8, ram := [(0x08, 0x6D)] })
    (fun s => { s with r3 := 0x6D, pc := 0x11 }) = true := by decide

/-- V6 -/
theorem test_store0_r1_relative : stepsTo 0x1300 (fun s => { s with r0 := 0xAB, r1 := 0x40 })
    (fun s => { s with ram := [(0x40, 0xAB)], pc := 0x11 }) = true := by decide

/-- V8 -/
theorem test_store0_to_pc_jumps : stepsTo 0x1106 (fun s => { s with r0 := 0x44 })
    (fun s => { s with pc := 0x44 }) = true := by decide

/-- V11 -/
theorem test_load1_flags_all_bits : stepsTo 0x84FF (fun s => s)
    (fun s => { s with flags := 0xFF, pc := 0x11 }) = true := by decide

/-- V13 -/
theorem test_load1_ret : stepsTo 0x8907 (fun s => { s with lr := 0x03 })
    (fun s => { s with pc := 0x03 }) = true := by decide

/-- V18 -/
theorem test_store1_pc : stepsTo 0x9931 (fun s => s)
    (fun s => { s with ram := [(0x31, 0x10)], pc := 0x11 }) = true := by decide

/-- V19 -/
theorem test_store1_flags : stepsTo 0x9601 (fun s => { s with r0 := 0x50, flags := 0x25 })
    (fun s => { s with ram := [(0x51, 0x25)], pc := 0x11 }) = true := by decide

/-- V24 -/
theorem test_add_source_is_target : stepsTo 0x2501 (fun s => { s with r1 := 0x21 })
    (fun s => { s with r1 := 0x42, pc := 0x11 }) = true := by decide

/-- V34 -/
theorem test_add_pc : stepsTo 0x2106 (fun s => { s with r0 := 0x01 })
    (fun s => { s with r0 := 0x11, pc := 0x11 }) = true := by decide

/-- V26 -/
theorem test_sub_borrows : stepsTo 0x3405 (fun s => { s with r1 := 0x03 })
    (fun s => { s with r1 := 0xFE, pc := 0x11 }) = true := by decide

/-- V28 -/
theorem test_sub_source_is_target : stepsTo 0x3902 (fun s => { s with r2 := 0x7B })
    (fun s => { s with r2 := 0x00, pc := 0x11 }) = true := by decide

/-- V29 -/
theorem test_and : stepsTo 0x400F (fun s => { s with r0 := 0xA7 })
    (fun s => { s with r0 := 0x07, pc := 0x11 }) = true := by decide

/-- V30 -/
theorem test_or : stepsTo 0x5880 (fun s => { s with r2 := 0x01 })
    (fun s => { s with r2 := 0x81, pc := 0x11 }) = true := by decide

/-- V32 -/
theorem test_xor_not : stepsTo 0x6CFF (fun s => { s with r3 := 0x5A })
    (fun s => { s with r3 := 0xA5, pc := 0x11 }) = true := by decide

/-- V35 -/
theorem test_swap_cell : stepsTo 0xA520 (fun s => { s with r1 := 0x11, ram := [(0x20, 0x99)] })
    (fun s => { s with r1 := 0x99, ram := [(0x20, 0x11)], pc := 0x11 }) = true := by decide

/-- V37 -/
theorem test_swap_old_base : stepsTo 0xA202 (fun s => { s with r0 := 0x30, ram := [(0x32, 0x07)] })
    (fun s => { s with r0 := 0x07, ram := [(0x32, 0x30)], pc := 0x11 }) = true := by decide

/-- V44 -/
theorem test_shlN_register_count : stepsTo 0xC00A (fun s => { s with r0 := 0x01, r2 := 0x0B })
    (fun s => { s with r0 := 0x08, pc := 0x11 }) = true := by decide

/-- V45 -/
theorem test_shlN_count_is_target : stepsTo 0xC409 (fun s => { s with r1 := 0x03 })
    (fun s => { s with r1 := 0x18, pc := 0x11 }) = true := by decide

/-- V46 -/
theorem test_shrN_zero_fill : stepsTo 0xC413 (fun s => { s with r1 := 0xF0 })
    (fun s => { s with r1 := 0x1E, pc := 0x11 }) = true := by decide

/-- V49 -/
theorem test_rolN : stepsTo 0xC821 (fun s => { s with r2 := 0x81 })
    (fun s => { s with r2 := 0x03, pc := 0x11 }) = true := by decide

/-- V51 -/
theorem test_rorN : stepsTo 0xCC33 (fun s => { s with r3 := 0x16 })
    (fun s => { s with r3 := 0xC2, pc := 0x11 }) = true := by decide

/-- V52 -/
theorem test_rolc_carry_in_and_out : stepsTo 0xC040 (fun s => { s with r0 := 0x80, flags := 0x04 })
    (fun s => { s with r0 := 0x01, pc := 0x11 }) = true := by decide

/-- V54 -/
theorem test_rolc_sets_carry : stepsTo 0xC040 (fun s => { s with r0 := 0xC1 })
    (fun s => { s with r0 := 0x82, flags := 0x04, pc := 0x11 }) = true := by decide

/-- V55 -/
theorem test_rorc_sets_carry : stepsTo 0xC450 (fun s => { s with r1 := 0x01 })
    (fun s => { s with r1 := 0x00, flags := 0x04, pc := 0x11 }) = true := by decide

/-- V56 -/
theorem test_rorc_carry_in : stepsTo 0xC450 (fun s => { s with r1 := 0x02, flags := 0x04 })
    (fun s => { s with r1 := 0x81, flags := 0x00, pc := 0x11 }) = true := by decide

/-- V59 -/
theorem test_shlCr : stepsTo 0xC080 (fun s => { s with r0 := 0x03, cr := 0x04 })
    (fun s => { s with r0 := 0x30, pc := 0x11 }) = true := by decide

/-- V60 -/
theorem test_shlCr_count_eight : stepsTo 0xC080 (fun s => { s with r0 := 0x03, cr := 0x08 })
    (fun s => { s with pc := 0x11 }) = true := by decide

/-- V61 -/
theorem test_shrCr : stepsTo 0xC490 (fun s => { s with r1 := 0x80, cr := 0x07 })
    (fun s => { s with r1 := 0x01, pc := 0x11 }) = true := by decide

/-- V63 -/
theorem test_rolCr_count_mod_eight : stepsTo 0xC8A0 (fun s => { s with r2 := 0xA5, cr := 0x0C })
    (fun s => { s with r2 := 0x5A, pc := 0x11 }) = true := by decide

/-- V64 -/
theorem test_rorCr : stepsTo 0xCCB0 (fun s => { s with r3 := 0x81, cr := 0x01 })
    (fun s => { s with r3 := 0xC0, pc := 0x11 }) = true := by decide

/-- V66 -/
theorem test_adc_wraps : stepsTo 0xC0C0 (fun s => { s with r0 := 0xFF, flags := 0x04 })
    (fun s => { s with r0 := 0x00, pc := 0x11 }) = true := by decide

/-- V67 -/
theorem test_adc_no_carry : stepsTo 0xC0C0 (fun s => { s with r0 := 0x0F })
    (fun s => { s with pc := 0x11 }) = true := by decide

/-- V68 -/
theorem test_sbm_wraps : stepsTo 0xC4D0 (fun s => { s with r1 := 0x00, flags := 0x01 })
    (fun s => { s with r1 := 0xFF, pc := 0x11 }) = true := by decide

/-- V69 -/
theorem test_sbm_no_minus : stepsTo 0xC4D0 (fun s => { s with r1 := 0x00 })
    (fun s => { s with pc := 0x11 }) = true := by decide

/-- V70 -/
theorem test_neg : stepsTo 0xC0E0 (fun s => { s with r0 := 0x01 })
    (fun s => { s with r0 := 0xFF, pc := 0x11 }) = true := by decide

/-- V72 -/
theorem test_neg_0x80 : stepsTo 0xC0E0 (fun s => { s with r0 := 0x80 })
    (fun s => { s with pc := 0x11 }) = true := by decide

/-- V73 -/
theorem test_loadro : stepsTo 0xC8F0 (fun s => { s with r2 := 0x05, code := [(0x05, 0x1234), (0x10, 0xC8F0)] })
    (fun s => { s with r0 := 0x12, r1 := 0x34, pc := 0x11 }) = true := by decide

/-- V74 -/
theorem test_loadro_own_word : stepsTo 0xC0F0 (fun s => { s with r0 := 0x10 })
    (fun s => { s with r0 := 0xC0, r1 := 0xF0, pc := 0x11 }) = true := by decide

/-- V75 -/
theorem test_cmp_less : stepsTo 0x7030 (fun s => { s with r0 := 0x20, flags := 0xC4 })
    (fun s => { s with flags := 0xC5, pc := 0x11 }) = true := by decide

/-- V79 -/
theorem test_cmp_unsigned : stepsTo 0x707F (fun s => { s with r0 := 0x80, flags := 0xC4 })
    (fun s => { s with flags := 0xC4, pc := 0x11 }) = true := by decide

/-- V83 -/
theorem test_setflags : stepsTo 0xDFC5 (fun s => { s with flags := 0xC2 })
    (fun s => { s with flags := 0xC5, pc := 0x11 }) = true := by decide

/-- V85 -/
theorem test_setflags_clc : stepsTo 0xD100 (fun s => { s with flags := 0x3F })
    (fun s => { s with flags := 0x3B, pc := 0x11 }) = true := by decide

/-- V95 -/
theorem test_loop_zero_wraps_and_jumps : stepsTo 0xBC03 (fun s => { s with r3 := 0x00 })
    (fun s => { s with r3 := 0xFF, pc := 0x03 }) = true := by decide

/-- V96 -/
theorem test_loop_one_falls_through : stepsTo 0xBC03 (fun s => { s with r3 := 0x01 })
    (fun s => { s with r3 := 0x00, pc := 0x11 }) = true := by decide

/-- V104 -/
theorem test_mulConst_unsigned : stepsTo 0xF7FF (fun s => { s with r3 := 0xFF })
    (fun s => { s with r0 := 0xFE, r1 := 0x01, pc := 0x11 }) = true := by decide

/-- V107 -/
theorem test_mulConst_signed : stepsTo 0xFD7F (fun s => { s with r2 := 0x80 })
    (fun s => { s with r0 := 0xC0, r1 := 0x80, pc := 0x11 }) = true := by decide

/-- V108 -/
theorem test_mulReg_square : stepsTo 0xF000 (fun s => { s with r0 := 0x0C })
    (fun s => { s with r0 := 0x00, r1 := 0x90, pc := 0x11 }) = true := by decide

/-- V110 -/
theorem test_mulReg_pc : stepsTo 0xF006 (fun s => { s with r0 := 0x02 })
    (fun s => { s with r0 := 0x00, r1 := 0x20, pc := 0x11 }) = true := by decide

/-- Which of the sixteen branches to 0x40 at 0x10, in the order of the opcode table, are taken with these flags; a
branch not taken ends at 0x11. -/
def branchesTaken (flags : Byte) : List Bool :=
  [0xE040, 0xE140, 0xE240, 0xE340, 0xE440, 0xE540, 0xE640, 0xE740,
    0xE840, 0xE940, 0xEA40, 0xEB40, 0xEC40, 0xED40, 0xEE40, 0xEF40].map fun w =>
      let s : State := { at10 w with flags := flags }
      if after (step s) = some { s with pc := 0x40 } then true
      else !(after (step s) = some { s with pc := 0x11 })

/-! The table of 95_test_vectors.md section 2.7, one theorem per row. -/

theorem test_branches_0x00 : branchesTaken 0x00 =
    [false, true, false, false, false, false, false, false, true, false, true, true, true, true, true, true] := by decide
theorem test_branches_0x02 : branchesTaken 0x02 =
    [false, false, true, false, false, false, false, false, true, true, false, true, true, true, true, true] := by decide
theorem test_branches_0x01 : branchesTaken 0x01 =
    [true, false, false, false, true, false, false, false, false, true, true, true, false, true, true, true] := by decide
theorem test_branches_0x03 : branchesTaken 0x03 =
    [false, false, true, false, true, false, false, false, true, true, false, true, false, true, true, true] := by decide
theorem test_branches_0x04 : branchesTaken 0x04 =
    [false, true, false, true, false, false, false, false, true, false, true, false, true, true, true, true] := by decide
theorem test_branches_0x08 : branchesTaken 0x08 =
    [false, true, false, false, false, true, false, false, true, false, true, true, true, false, true, true] := by decide
theorem test_branches_0x10 : branchesTaken 0x10 =
    [false, true, false, false, false, false, true, false, true, false, true, true, true, true, false, true] := by decide
theorem test_branches_0x20 : branchesTaken 0x20 =
    [false, true, false, false, false, false, false, true, true, false, true, true, true, true, true, false] := by decide

/-- V93 and V113: pc wraps. -/
theorem test_pc_wraps :
    let s : State := { at10 0 with pc := 0xFF, code := [(0xFF, 0x5000)] }
    after (step s) = some { s with pc := 0x00 } := by decide

/-- V9, V20, V40, V57, V58, V112: the reserved rows, with word and address. -/
theorem test_reserved_words_fault :
    [0x1012, 0x9000, 0xA000, 0xC060, 0xC47F, 0xF008].map (fun w => stop (step (at10 w))) =
      [0x1012, 0x9000, 0xA000, 0xC060, 0xC47F, 0xF008].map (fun w => some (.reservedEncoding w 0x10)) := by decide

/-- Every bit of a reserved word is in the fault (R221). -/
theorem test_reserved_word_is_recorded_whole :
    [0x1CFF, 0x9C5A, 0xACA5, 0xCF6F, 0xCF7F, 0xFEFF].map (fun w => stop (step (at10 w))) =
      [0x1CFF, 0x9C5A, 0xACA5, 0xCF6F, 0xCF7F, 0xFEFF].map (fun w => some (.reservedEncoding w 0x10)) := by decide

/-- Reset: pc at 0x00 (R42); the host's placement is run by the next step. -/
theorem test_reset_runs_the_placed_word :
    after (step (State.reset.withFetchWord 16 0x04FF)) =
      some { State.reset.withFetchWord 16 0x04FF with r1 := 0xFF, pc := 0x01 } := by decide

/-! ### Other settings of the parameters -/

/-- V47 under SHR_FILL = sign. -/
theorem test_shr_sign_fill : shr .sign 0x80 7 = 0xFF := by decide

/-- V15 under PC_READ_OFFSET = 1. -/
theorem test_pc_read_offset :
    (after (loadOp { params with pcReadOffset := 1 } .pc (.cell (.abs 0x06)) (at10 0))).map State.pc = some 0x11 := by
  decide

/-- V78 to V80: the three settings of CMP_MINUS, flags 0xC4 before. -/
theorem test_cmp_settings :
    ([CmpMinus.unsignedLess, .signedLess, .diffBit7].map fun c =>
      [(0x00, 0xFF), (0x80, 0x7F), (0x7F, 0x80)].map fun (a, v) => cmpFlags { params with cmpMinus := c } 0xC4 a v) =
    [[0xC5, 0xC4, 0xC5], [0xC4, 0xC5, 0xC4], [0xC4, 0xC4, 0xC5]] := by decide

/-- V95 to V98: the other two settings of LOOP_TEST. -/
theorem test_loop_settings :
    ([LoopTest.preNonzero, .preZero].map fun l => [0x00, 0x01, 0x02, 0xFF].map fun r =>
      (after (loopOp { params with loopTest := l } .r3 (.const 0x03) { at10 0 with r3 := r })).map
        fun t => (t.r3, t.pc)) =
    [[some (0xFF, 0x11), some (0x00, 0x03), some (0x01, 0x03), some (0xFE, 0x03)],
     [some (0xFF, 0x03), some (0x00, 0x11), some (0x01, 0x11), some (0xFE, 0x11)]] := by decide

/-- PAIR_HIGH = r1 (R54): 0x4E20 with r1 high. -/
theorem test_pair_high_r1 :
    pairWrites { params with pairHigh := .r1 } 0x4E20 = [(0x00, 0x20), (0x01, 0x4E)] := by decide

/-- DATA_BYTES = 0x20: a store at 0x20 faults, one at 0x1F does not (R59). -/
theorem test_data_bytes :
    stop (storeOp { params with dataBytes := 0x20 } .r0 (.abs 0x20) (at10 0)) = some (.dataOutOfRange 0x20) ∧
    after (storeOp { params with dataBytes := 0x20 } .r0 (.abs 0x1F) (at10 0)) =
      some { at10 0 with ram := [(0x1F, 0x00)], pc := 0x11 } := by decide

/-- MUL_LAYOUT with `e` on top (R88): `mul.s r2, 0x64` has its fields at bits 0, 1, 3 and 4. -/
theorem test_mul_layout :
    decode { params with mulLayout := { sg := 0, ms := 1, sel := 3, e := 4 } } 0b1111_01100100_1_10_1 =
      some (.mulConst true .r2 0x64) := by decide

/-- LOADRO_ADDR = r3 (U7): V73 with the address in r3 instead of the target r2. -/
theorem test_loadro_address_register :
    (after (loadroOp { params with loadroAddr := .register .r3 } .r2
      { at10 0 with r3 := 0x05, code := [(0x05, 0x1234)] })).map (fun t => (t.r0, t.r1)) = some (0x12, 0x34) := by decide

/-- LOADRO_ADDR = any value (U7): one free word is counted and the instruction completes. -/
theorem test_loadro_any_value :
    (after (loadroOp { params with loadroAddr := .anyValue } .r2 (at10 0))).map (fun t => (t.freeIndex, t.pc)) =
      some (State.reset.freeIndex + 1, 0x11) := by decide

/-- RESERVED_POLICY = stuck (U1). -/
theorem test_reserved_stuck :
    (at10 0).reservedStop { params with reserved := .stuck } 0x1012 = .refused (.reservedStuck 0x1012) := rfl

/-! ### The end of a run, and the assembler -/

/-- V14 two steps into a run: `bra 0x05` at 0x10 ends at the halt of 0x05 (R255). -/
theorem test_run_ends_at_the_first_halt :
    let s : State := { at10 0 with code := [(0x05, 0x8805), (0x10, 0x8805)] }
    runEnd 0 s = .running s ∧ runEnd 9 s = .halted { s with pc := 0x05 } := by decide

/-- V9 (R221): a run into a reserved word has the fault as its end. -/
theorem test_run_ends_at_a_fault : runEnd 9 (at10 0x1012) = .fault (.reservedEncoding 0x1012 0x10) := by decide

/-- R97, R120: `mov lr, pc` and `mov pc, pc` at 0x10 carry the address; pc is not read. -/
theorem test_mov_from_pc :
    (assemble params 0x10 (.movLoad .lr (.reg .pc))).map encode = [0x8C10] ∧
    (assemble params 0x10 (.movLoad .pc (.reg .pc))).map encode = [0x8810] := by decide

/-! ### The hypotheses of the statements are met -/

/-- EncodeThenDecodeReturnsTheInstruction. -/
theorem witness_wellFormed : (Instr.mulReserved true .r3 0xFF).wellFormed = true ∧
    (Instr.mulReserved false .r0 0x08).wellFormed = true := by decide

/-- ReservedWordsAreExactlyThePatterns: a word of each pattern and its neighbours. -/
theorem witness_patterns :
    ([0x1000, 0x1FFF, 0x9CFF, 0xA000, 0xCF6F, 0xC070, 0xF008, 0xF007, 0xF1FF, 0x1100].map fun w =>
      (decode params w).map isReserved) =
    [some true, some false, some true, some true, some true, some true, some true, some false, some false,
      some false] := by decide

/-- UnusedBitsDoNotChangeTheInstruction: for an immediate count, a register count and no count. -/
theorem witness_unused_bits :
    (0x0300#16 &&& unusedBits 0xC001 = 0x0300) ∧ (0x0304#16 &&& unusedBits 0xC009 = 0x0304) ∧
    (0x030F#16 &&& unusedBits 0xCC40 = 0x030F) ∧ decode params 0xC30D = decode params 0xC009 := by decide

/-- MulWordsDecode: the register form at both ends, and the reserved words next to it. -/
theorem witness_mul_register_index :
    (0x00#8 = regAddr .r0) ∧ (0x07#8 = regAddr .lr) ∧ 8 ≤ (0x08#8).toNat ∧ 8 ≤ (0xFF#8).toNat := by decide

/-- StepRunsTheDecodedInstruction, for an instruction and for a reserved row. -/
theorem witness_step_runs :
    decode params ((at10 0x2401).codeCell (at10 0x2401).pc) = some (.add .r1 (.const 0x01)) ∧
    decode params ((at10 0x1000).codeCell (at10 0x1000).pc) = some (.store0Reserved .r0 0x00) := by decide

/-- EveryStepKeepsTheCanonicalForm and NoStepWritesTheCodeSpace: a step that lists a data cell. -/
theorem witness_canonical_step :
    Canonical (at10 0x1120) ∧ step (at10 0x1120) = .next { at10 0x1120 with ram := [(0x20, 0x00)], pc := 0x11 } :=
  ⟨rfl, rfl⟩

/-- ResetIsCanonicalWithPcZero: an image in canonical form at both ends of both spaces. -/
theorem witness_launch : State.reset.pc = 0x00 ∧
    Memory.wf 0 256 ([(0x00, 0x0001), (0xFF, 0x8800)] : CodeSpace) = true ∧
    Memory.wf 8 256 ([(0x08, 0x11), (0xFF, 0x22)] : Memory) = true := by decide

/-- PcAdvancesByOneUnlessWritten and OnlyTheListedCellsChange, at the top of the code space. -/
theorem witness_advance :
    let s : State := { at10 0 with pc := 0xFF }
    exec (.add .r1 (.const 0x01)) s = .next { s with r1 := 0x01, pc := 0x00 } ∧
      ¬ WritesPc (.add .r1 (.const 0x01)) s := ⟨rfl, id⟩

/-- ResultDependsOnlyOnTheCellsRead: two states that agree on what add reads and differ elsewhere. -/
theorem witness_agreement :
    let s : State := { at10 0 with r0 := 0x20, ram := [(0x2A, 0xF0)] }
    let t : State := { s with r1 := 0x99, flags := 0xFF, ram := [(0x29, 0x01), (0x2A, 0xF0)] }
    let i : Instr := .add .r0 (.cell (.r0Rel 0x0A))
    exec i s = .next { s with r0 := 0x10, pc := 0x11 } ∧ t.pc = s.pc ∧
      (∀ a : Byte, t.codeCell a = s.codeCell a) ∧ (∀ a ∈ readCells i s, t.cell a = s.cell a) ∧ s ≠ t :=
  ⟨rfl, rfl, fun _ => rfl, by decide, by decide⟩

/-- EveryStepCompletesUnlessReserved: a reserved word and one that is not. -/
theorem witness_reserved_or_not :
    isReserved (decodeWord ((at10 0xF008).codeCell (at10 0xF008).pc)) = true ∧
    isReserved (decodeWord ((at10 0xF007).codeCell (at10 0xF007).pc)) = false := by decide

/-- Store0StoresTheRegister, Store1StoresTheRegister and SwapExchangesRegisterAndCell: the cells next to pc, and a
wrapped address. -/
theorem witness_not_pc :
    let s : State := { at10 0 with r0 := 0xFE }
    s.ea params (.abs 0x05) ≠ regAddr .pc ∧ s.ea params (.abs 0x07) ≠ regAddr .pc ∧
      s.ea params (.r0Rel 0x07) = 0x05 ∧ s.ea params (.r0Rel 0x08) = regAddr .pc := by decide

/-- LoadAfterStoreReturnsTheValue: the cell named by another form after the store, for a wrapped address, for cell
0x06, and where the store changes the base register. -/
theorem witness_load_after_store :
    let s : State := { at10 0 with r0 := 0xFE, r1 := 0x44 }
    ([(.r0Rel 0x07, .abs 0x05), (.r0Rel 0x08, .abs 0x06), (.abs 0x00, .r0Rel 0xBC)] : List (Loc × Loc)).map
      (fun (l, m) => (after (exec (.store0 .r1 l) s)).map fun t => decide (t.ea params m = s.ea params l)) =
    [some true, some true, some true] := by decide

/-- MathWritesTheTarget: the words at both ends of the five ranges. -/
theorem witness_math_words :
    ([0x2000, 0x2FFF, 0x3000, 0x3FFF, 0x4000, 0x4FFF, 0x5000, 0x5FFF, 0x6000, 0x6FFF].map decodeWord) =
      let first : Src := .const 0x00
      let last : Src := .cell (.r1Rel 0xFF)
      [.add .r0 first, .add .r3 last, .sub .r0 first, .sub .r3 last, .and .r0 first, .and .r3 last,
        .or .r0 first, .or .r3 last, .xor .r0 first, .xor .r3 last] := by decide

/-- Load0LoadsTheOperand and Load1LoadsTheOperand: the words at both ends of their ranges, and their neighbours. -/
theorem witness_load_words :
    decode params 0x0000 = some (.load0 .r0 (.const 0x00)) ∧
    decode params 0x0FFF = some (.load0 .r3 (.cell (.r1Rel 0xFF))) ∧
    decode params 0x8000 = some (.load1 .cr (.const 0x00)) ∧
    decode params 0x8FFF = some (.load1 .lr (.cell (.r1Rel 0xFF))) ∧
    decode params 0x7FFF = some (.cmp .r3 (.cell (.r1Rel 0xFF))) := by decide

/-- ArithmeticLeavesTheFlags. -/
theorem witness_arith_writes_no_flag :
    arithWritesNoFlag (.loop .r3 (.const 0x00)) = true ∧ arithWritesNoFlag (.mulReg true .r0 .pc) = true ∧
    arithWritesNoFlag (.rolc .r0) = false := by decide

/-- HavocChangesOnlyThreeFlags: another layout of the flags, the smallest data space, and an operand in its last
cell; and a constant operand. -/
theorem witness_havoc :
    let flagBit : FlagLayout := { minus := 5, zero := 4, carry := 3, xtra1 := 2, xtra2 := 1, xtra3 := 0 }
    let p : Params := { params with arithFlags := .havoc, dataBytes := 8, flagBit := flagBit }
    p.arithFlags = .havoc ∧ p.wellFormed = true ∧
    (∀ l, Src.cell (.r0Rel 0x07) = .cell l → ((at10 0).ea p l).toNat < p.dataBytes) ∧
    (∀ l, Src.const 0x01 = .cell l → ((at10 0).ea p l).toNat < p.dataBytes) :=
  ⟨rfl, by decide, fun _ h => by cases h; decide, fun _ h => by cases h⟩

/-- CmpReadingsAgreeOnEqualTopBits, with the top bit clear and set. -/
theorem witness_equal_top_bits :
    (0x00#8).getLsbD 7 = (0x7F#8).getLsbD 7 ∧ (0x80#8).getLsbD 7 = (0xFF#8).getLsbD 7 := by decide

/-- WritingOneFlagKeepsTheOthers: the default layout and another one. -/
theorem witness_injective : flagBitDefault.injective = true ∧
    FlagLayout.injective { minus := 5, zero := 4, carry := 3, xtra1 := 2, xtra2 := 1, xtra3 := 0 } = true := by decide

/-- BranchesFollowTheirTests: blt with its test true, and false for each of its two reasons. -/
theorem witness_branch_tests :
    [0x01, 0x00, 0x03].map (fun f => branchTest params.flagBit f false .lt) = [true, false, false] := by decide

/-- CompareThenBranchComparesUnsigned and LoopDecrementsAndJumpsIfNotZero: both outcomes, at the ends of the range. -/
theorem witness_outcomes :
    [(0x00, 0xFF), (0xFF, 0x00), (0x80, 0x80)].map (fun p : Nat × Nat => (decide (p.1 < p.2), decide (p.1 = p.2))) =
      [(true, false), (false, false), (false, true)] ∧
    ([0x00, 0x01, 0x02, 0xFF] : List Byte).map (fun a => decide (a - 1 = 0)) = [false, true, false, false] := by decide

/-- LoopTestOutcomeTable: a state for each row. -/
theorem witness_loop_rows :
    ([0x00, 0x01, 0x02, 0xFF] : List Byte).map (fun v => State.cell { at10 0 with r3 := v } (gAddr .r3)) =
      [0x00, 0x01, 0x02, 0xFF] := by decide

/-- LoopCountsItsRegisterDown: the counts of the registers 0x00, 0x01 and 0xFF. -/
theorem witness_loop_counts :
    ([0x00, 0x01, 0xFF] : List Byte).map (fun v => if v = 0 then 256 else v.toNat) = [256, 1, 255] := by decide

/-- CallThenReturnContinuesAfterTheCall: the state after the call, at the top of the code space, and one in the
subroutine whose lr holds the same. -/
theorem witness_call :
    let s : State := { at10 0 with pc := 0xFE }
    let t : State := { s with lr := 0x00, pc := 0xFF }
    exec (.load1 .lr (.const 0x00)) s = .next t ∧
      exec (.load1 .pc (.const 0x05)) t = .next { t with pc := 0x05 } ∧
      { at10 0x8907 with r0 := 0x77 }.lr = { t with pc := 0x05 }.lr := ⟨rfl, rfl, rfl⟩

/-- HaltIsAFixedPointOfTheStep and HaltedStatesStayForever: V14, V15 and V92. -/
theorem witness_halt :
    (at10 0x8810).codeCell (at10 0x8810).pc = BitVec.ofNat 16 (0x8800 + (at10 0x8810).pc.toNat) ∧
    (at10 0x8906).codeCell (at10 0x8906).pc = 0x8906 ∧
    Halted (at10 0x8810) ∧ Halted { at10 0xE210 with flags := 0x02 } :=
  ⟨rfl, rfl, ⟨_, rfl, fun _ => rfl⟩, ⟨_, rfl, fun _ => rfl⟩⟩

/-- ARunEndsOnceOrGoesOnForEver and RunEndFindsTheFirstHaltedState: a run that ends, and one that faults. -/
theorem witness_run_ends :
    HaltsAt (at10 0x8810) 0 (at10 0x8810) ∧ FinalData (at10 0x8810) (at10 0x8810).cell ∧ Faults (at10 0x1012) := by
  have h : HaltsAt (at10 0x8810) 0 (at10 0x8810) :=
    ⟨rfl, ⟨_, rfl, fun _ => rfl⟩, fun k hk => absurd hk (Nat.not_lt_zero k)⟩
  exact ⟨h, ⟨_, _, h, fun _ => rfl⟩, 1, _, rfl⟩

/-- NonTerminating: two branches to each other. -/
theorem witness_non_terminating :
    NonTerminating { at10 0 with code := [(0x10, 0x8811), (0x11, 0x8810)] } := by
  have h : ∀ n, ∀ a ∈ [0x10#8, 0x11#8], ∃ b ∈ [0x10#8, 0x11#8],
      core.run n { at10 0 with pc := a, code := [(0x10, 0x8811), (0x11, 0x8810)] } =
        .next { at10 0 with pc := b, code := [(0x10, 0x8811), (0x11, 0x8810)] } := by
    intro n
    induction n with
    | zero => exact fun a ha => ⟨a, ha, rfl⟩
    | succ n ih =>
      simp only [List.mem_cons, List.not_mem_nil, or_false, forall_eq_or_imp, forall_eq] at ih ⊢
      exact ⟨ih.2, ih.1⟩
  refine ⟨?_, ?_⟩
  · rintro ⟨n, t, hn, ⟨u, hu, hcell⟩, -⟩
    obtain ⟨b, hb, e⟩ := h n 0x10 (by simp)
    obtain rfl : _ = t := by cases e.symm.trans hn; rfl
    simp only [List.mem_cons, List.not_mem_nil, or_false] at hb
    rcases hb with rfl | rfl <;> (cases hu; exact absurd (hcell (regAddr .pc)) (by decide))
  · rintro ⟨n, f, hn⟩
    obtain ⟨b, -, e⟩ := h n 0x10 (by simp)
    cases e.symm.trans hn

/-- UnimplementedCellsFault: each address form at the first address beyond the space, with base and target registers
implemented; the code address of loadro, and the fetch. -/
theorem witness_unimplemented :
    let p : Params := { params with dataBytes := 0x20, codeWords := 0x10 }
    let s : State := { at10 0 with r0 := 0x10, r1 := 0x0F }
    ([.abs 0x20, .r0Rel 0x10, .r1Rel 0x11] : List Loc).all
      (fun l => decide (p.dataBytes ≤ (s.ea p l).toNat ∧ ∀ a ∈ baseCells l, a.toNat < p.dataBytes)) ∧
    (regAddr .lr).toNat < p.dataBytes ∧ (gAddr .r3).toNat < p.dataBytes ∧ p.loadroAddr = .target ∧
    p.codeWords ≤ (s.cell (gAddr .r0)).toNat ∧ p.codeWords ≤ s.pc.toNat := by decide

/-- EveryMulLayoutRoundTrips: the default layout, one with `e` at bit 4 and one with `e` in the middle. -/
theorem witness_mul_layouts :
    ([mulLayoutDefault, { sg := 0, ms := 1, sel := 3, e := 4 }, { sg := 0, ms := 9, sel := 11, e := 1 }]).map
      MulLayout.wellFormed = [true, true, true] ∧ 8 ≤ (0x08#8).toNat := by decide

end Sys2Proof.Tests
end

section
/-! The words of formats A, B and E as numbers (R78, R82, R88), what the decoder answers for a word of formats A and B,
and the statements about the encoding that rest on these. -/

namespace Sys2Proof.Proofs.Encoding

open Sys2Proof Sys2Proof.Config Sys2Proof.Machine

/-! ### Words as numbers -/

/-- A field set above a word adds the field's value, shifted by the word's width. -/
theorem toNat_append_eq_add {v w : Nat} (hi : BitVec v) (lo : BitVec w) :
    (hi ++ lo).toNat = 2 ^ w * hi.toNat + lo.toNat := by
  rw [BitVec.toNat_append, ← Nat.shiftLeft_add_eq_or_of_lt lo.isLt, Nat.shiftLeft_eq, Nat.mul_comm]

theorem toNat_formatA (op : BitVec 4) (b cc : BitVec 2) (d : Byte) :
    (formatA op b cc d).toNat = 0x1000 * op.toNat + 0x400 * b.toNat + 0x100 * cc.toNat + d.toNat := by
  rw [formatA, toNat_append_eq_add, toNat_append_eq_add, toNat_append_eq_add]
  omega

theorem toNat_formatB (b xx : BitVec 2) (sub arg : BitVec 4) :
    (formatB b xx sub arg).toNat =
      0xC000 + 0x400 * b.toNat + 0x100 * xx.toNat + 0x10 * sub.toNat + arg.toNat := by
  rw [formatB, toNat_append_eq_add, toNat_append_eq_add, toNat_append_eq_add, toNat_append_eq_add]
  simp only [BitVec.toNat_ofNat]
  omega

theorem toNat_formatE (sg sel : Bool) (ms : BitVec 2) (e : Byte) :
    (formatE mulLayoutDefault sg ms sel e).toNat =
      0xF000 + 0x800 * sg.toNat + 0x200 * ms.toNat + 0x100 * sel.toNat + e.toNat := by
  rw [formatE_default, toNat_append_eq_add, toNat_append_eq_add, toNat_append_eq_add, toNat_append_eq_add]
  simp only [BitVec.toNat_ofNat, BitVec.toNat_ofBool]
  omega

/-- The word written as a number is the word whose value is that number. -/
theorem ofNat_eq_of_toNat {n : Nat} {w : Word} (h : w.toNat = n) : BitVec.ofNat 16 n = w := by
  rw [← h, BitVec.ofNat_toNat, BitVec.setWidth_eq]

theorem toNat_count_bits (n : Count) :
    n.bits.toNat = match n with | .imm k => k.toNat | .reg r => 8 + r.bits.toNat := by
  cases n with
  | imm k => revert k; decide
  | reg r => cases r <;> rfl

/-! ### What the decoder answers -/

/-- The opcode map of format A (R77, R78): each opcode 0 to 11 hands its instruction the target field, and the source
type with the data byte. -/
theorem decodeWord_formatA (b cc : BitVec 2) (d : Byte) :
    let x := GReg.ofBits b
    let y := SReg.ofBits b
    let src := Src.ofBits cc d
    decodeWord (formatA 0 b cc d) = .load0 x src ∧
    decodeWord (formatA 1 b cc d) = decodeStoring (.store0 x) (.store0Reserved x) cc d ∧
    decodeWord (formatA 2 b cc d) = .add x src ∧
    decodeWord (formatA 3 b cc d) = .sub x src ∧
    decodeWord (formatA 4 b cc d) = .and x src ∧
    decodeWord (formatA 5 b cc d) = .or x src ∧
    decodeWord (formatA 6 b cc d) = .xor x src ∧
    decodeWord (formatA 7 b cc d) = .cmp x src ∧
    decodeWord (formatA 8 b cc d) = .load1 y src ∧
    decodeWord (formatA 9 b cc d) = decodeStoring (.store1 y) (.store1Reserved y) cc d ∧
    decodeWord (formatA 10 b cc d) = decodeStoring (.swap x) (.swapReserved x) cc d ∧
    decodeWord (formatA 11 b cc d) = .loop x src := by
  simp [decodeWord, decodeWith]

/-- A word of format B is read field by field (R82). -/
theorem decodeWord_formatB (b xx : BitVec 2) (sub arg : BitVec 4) :
    decodeWord (formatB b xx sub arg) = decodeUnary (GReg.ofBits b) xx sub arg := by
  simp [decodeWord, decodeWith]

/-- A word of format B written as a number, its bits without a use at zero. -/
theorem decode_unary_word (b : GReg) (sub arg : BitVec 4) :
    decode params (BitVec.ofNat 16 (0xC000 + 0x400 * b.bits.toNat + 0x10 * sub.toNat + arg.toNat)) =
      some (decodeUnary b 0 sub arg) := by
  have hword : (formatB b.bits 0 sub arg).toNat =
      0xC000 + 0x400 * b.bits.toNat + 0x10 * sub.toNat + arg.toNat := by simp [toNat_formatB]
  rw [decode_params, ofNat_eq_of_toNat hword, decodeWord_formatB, gReg_ofBits_bits]

/-- The sub-ops of the `.n` shifts and rotates, whose argument is a count (R83, R84). -/
theorem decodeUnary_count (b : GReg) (xx : BitVec 2) (n : Count) :
    decodeUnary b xx 0 n.bits = .shlN b n ∧ decodeUnary b xx 1 n.bits = .shrN b n ∧
    decodeUnary b xx 2 n.bits = .rolN b n ∧ decodeUnary b xx 3 n.bits = .rorN b n := by
  simp [decodeUnary]

/-! ### The obligations -/

/-- Settles O5: each word is the format A word of its fields, and the decoder's target and operand of those fields are
the ones named. -/
theorem formatAFieldsDecode : Obligations.FormatAFieldsDecode := by
  intro b cc d word x y src storing
  have hword (op : BitVec 4) : word op.toNat = formatA op (.ofFin b) (.ofFin cc) d :=
    ofNat_eq_of_toNat (toNat_formatA op (.ofFin b) (.ofFin cc) d)
  have hx : GReg.ofBits (.ofFin b) = x := by fin_cases b <;> rfl
  have hy : SReg.ofBits (.ofFin b) = y := by fin_cases b <;> rfl
  have hsrc : Src.ofBits (.ofFin cc) d = src := by fin_cases cc <;> rfl
  have hstoring (cell : Loc → Instr) (reserved : Byte → Instr) :
      decodeStoring cell reserved (.ofFin cc) d = storing cell (reserved d) := by fin_cases cc <;> rfl
  have h := decodeWord_formatA (.ofFin b) (.ofFin cc) d
  simp only [hx, hy, hsrc, hstoring, ← hword] at h
  simpa using h

/-- Settles O6: each word is the format B word of its sub-op, and the sub-op selects the row of decodeUnary. -/
theorem unarySubOpSelectsTheInstruction : Obligations.UnarySubOpSelectsTheInstruction := by
  intro b n word arg
  have harg : arg = n.bits.toNat := (toNat_count_bits n).symm
  have hword (sub a : BitVec 4) : decode params (word sub.toNat a.toNat) = some (decodeUnary b 0 sub a) :=
    decode_unary_word b sub a
  obtain ⟨hshl, hshr, hrol, hror⟩ := decodeUnary_count b 0 n
  rw [harg]
  exact ⟨hshl ▸ hword 0 n.bits, hshr ▸ hword 1 n.bits, hrol ▸ hword 2 n.bits, hror ▸ hword 3 n.bits,
    hword 4 0, hword 5 0, hword 6 0, hword 7 0, hword 8 0, hword 9 0, hword 10 0, hword 11 0, hword 12 0,
    hword 13 0, hword 14 0, hword 15 0⟩

/-- Settles O27: exec_reserved gives the fault of all six rows, with the encoded word; what is left is that word's
value. -/
theorem reservedRowsFault : Obligations.ReservedRowsFault := by
  intro s b x d xx arg sg stop
  have hstop {i : Instr} {w : Nat} (hi : Safety.isReserved i = true) (hw : (encode i).toNat = w) :
      exec i s = stop w := by
    rw [exec_reserved hi]
    simp only [stop, ofNat_eq_of_toNat hw]
  refine ⟨hstop rfl ?_, hstop rfl ?_, hstop rfl ?_, hstop rfl ?_, hstop rfl ?_, hstop rfl ?_⟩
  · exact (toNat_formatA 1 b.bits 0 d).trans (by simp)
  · exact (toNat_formatA 9 x.bits 0 d).trans (by simp)
  · exact (toNat_formatA 10 b.bits 0 d).trans (by simp)
  · have hsub : BitVec.toNat 6#4 = 6 := rfl
    exact (toNat_formatB b.bits xx 6#4 arg).trans (by omega)
  · have hsub : BitVec.toNat 7#4 = 7 := rfl
    exact (toNat_formatB b.bits xx 7#4 arg).trans (by omega)
  · exact (toNat_formatE sg false b.bits d).trans (by simp)

end Sys2Proof.Proofs.Encoding
end

section
/-! The loads (R110): which words are loads, and what an instruction whose one write is of a general register leaves. -/

namespace Sys2Proof.Proofs.MovLoadStore

open Sys2Proof Sys2Proof.Config Sys2Proof.Machine Sys2Proof.Safety Sys2Proof.Proofs.Encoding

/-- A word is the format A word of its opcode and of the three fields below it (R78). -/
theorem exists_eq_formatA {w : Word} {op : BitVec 4} (hop : w.toNat / 0x1000 = op.toNat) :
    ∃ b cc d, w = formatA op b cc d := by
  refine ⟨w.extractLsb' 10 2, w.extractLsb' 8 2, w.extractLsb' 0 8, BitVec.eq_of_toNat_eq ?_⟩
  rw [toNat_formatA]
  simp only [BitVec.extractLsb'_toNat, Nat.shiftRight_eq_div_pow]
  omega

/-- Opcode 0 is load0, whatever the other fields hold (R77). -/
theorem decode_opcode_zero {w : Word} (hw : w.toNat < 0x1000) :
    ∃ b src, decode params w = some (.load0 b src) := by
  have hop : w.toNat / 0x1000 = (0#4).toNat := Nat.div_eq_of_lt hw
  obtain ⟨b, cc, d, rfl⟩ := exists_eq_formatA hop
  obtain ⟨hload0, -⟩ := decodeWord_formatA b cc d
  exact ⟨GReg.ofBits b, Src.ofBits cc d, congrArg some hload0⟩

/-- The end of an instruction whose only write is of a general register: the register, pc (R38) and the frame. -/
theorem settle_register (s : State) (b : GReg) (v : Byte) :
    let t := s.settle params [(gAddr b, v)]
    t.cell (gAddr b) = v ∧ t.pc = s.pc + params.pcStep ∧ SameBut [gAddr b, regAddr .pc] s t := by
  have hpc : ∀ w ∈ [(gAddr b, v)], w.1 ≠ regAddr .pc := by simp [gAddr_ne_pc]
  exact ⟨settle_one_cell s _ v, settle_pc s _ hpc, sameBut_settle s _ _ (by simp) (by simp)⟩

/-- Settles O21: the words are those of opcode 0, and load0 ends in one write, of the operand to its target. -/
theorem load0LoadsTheOperand : Obligations.Load0LoadsTheOperand :=
  ⟨fun _ hw => decode_opcode_zero hw, fun b src s =>
    ⟨_, exec_load0 b src s, settle_register s b (s.operand params src)⟩⟩

end Sys2Proof.Proofs.MovLoadStore
end

section
/-! setflags (R185): its words as numbers, each bit of the flags byte it computes, and what an instruction whose one
write is of the flags cell leaves. -/

namespace Sys2Proof.Proofs.Flags

open Sys2Proof Sys2Proof.Config Sys2Proof.Machine Sys2Proof.Safety Sys2Proof.Proofs.Encoding

theorem toNat_formatC (mask val : BitVec 6) :
    (formatC mask val).toNat = 0xD000 + 0x40 * mask.toNat + val.toNat := by
  rw [formatC, toNat_append_eq_add, toNat_append_eq_add]
  simp only [BitVec.toNat_ofNat]
  omega

/-- A word of format C is a setflags, and its two fields are the instruction's (R77, R85). -/
theorem decodeWord_formatC (mask val : BitVec 6) :
    decodeWord (formatC mask val) = .setflags mask val := by
  simp [decodeWord, decodeWith]

/-- A flag whose mask bit is 1 takes its bit of the value field, a flag whose mask bit is 0 keeps its own (R185). -/
theorem getLsbD_setflagsByte (flags : Byte) (mask val : BitVec 6) {i : Nat} (hi : i < 8) :
    (setflagsByte flags mask val).getLsbD i = if mask.getLsbD i then val.getLsbD i else flags.getLsbD i := by
  simp only [setflagsByte, BitVec.zeroExtend, BitVec.getLsbD_or, BitVec.getLsbD_and, BitVec.getLsbD_not,
    BitVec.getLsbD_setWidth, hi, decide_true, Bool.true_and]
  cases mask.getLsbD i <;> simp

/-- The mask has no bit above bit 5, so bits 7:6 of the flags cell stay (R185). -/
theorem getLsbD_setflagsByte_of_ge (flags : Byte) (mask val : BitVec 6) {i : Nat} (hlow : 6 ≤ i) (hi : i < 8) :
    (setflagsByte flags mask val).getLsbD i = flags.getLsbD i := by
  rw [getLsbD_setflagsByte flags mask val hi, BitVec.getLsbD_of_ge mask i hlow, if_neg Bool.false_ne_true]

/-- The end of an instruction whose only write is of the flags cell: the flags, pc (R38) and the frame. -/
theorem settle_flags (s : State) (v : Byte) :
    let t := s.settle params [(regAddr .flags, v)]
    t.flags = v ∧ t.pc = s.pc + params.pcStep ∧ SameBut [regAddr .flags, regAddr .pc] s t := by
  have hflags := settle_one_cell s (regAddr .flags) v
  rw [cell_regAddr, reg_flags] at hflags
  exact ⟨hflags, settle_pc s _ (by simp [regAddr_inj]), sameBut_settle s _ _ (by simp) (by simp)⟩

/-- Settles O44: each word is the format C word of its fields, and setflags ends in one write, of setflagsByte to the
flags cell. -/
theorem setflagsWritesTheMaskedBits : Obligations.SetflagsWritesTheMaskedBits := by
  intro mask val s
  have hdecode := congrArg some (decodeWord_formatC mask val)
  obtain ⟨hflags, hpc, hframe⟩ := settle_flags s (setflagsByte s.flags mask val)
  refine ⟨ofNat_eq_of_toNat (toNat_formatC mask val) ▸ hdecode, _, exec_setflags mask val s, ?_, ?_, ?_, hpc, hframe⟩
  · intro i hi
    rw [hflags, getLsbD_setflagsByte s.flags mask val (by omega)]
  · rw [hflags, getLsbD_setflagsByte_of_ge s.flags mask val (by decide) (by decide)]
  · rw [hflags, getLsbD_setflagsByte_of_ge s.flags mask val (by decide) (by decide)]

end Sys2Proof.Proofs.Flags
end

section
/-! The sixteen conditional branches (R86, R87, R190, R191), each as its `inv` and its base condition: the words as
numbers, the test of each as a statement about the flags, and how a branch ends. -/

namespace Sys2Proof.Proofs.Branch

open Sys2Proof Sys2Proof.Config Sys2Proof.Machine Sys2Proof.Safety Sys2Proof.Proofs.Encoding

/-! ### Words -/

/-- The `cond` field of a base condition (R87). -/
def condBits : Cond → BitVec 3
  | .lt => 0
  | .gt => 1
  | .eq => 2
  | .ca => 3
  | .mi => 4
  | .xt1 => 5
  | .xt2 => 6
  | .xt3 => 7

/-- The 4-bit field `inv ++ cond` of format D (R86). -/
def invCondBits (inv : Bool) (c : Cond) : BitVec 4 := BitVec.ofBool inv ++ condBits c

theorem toNat_formatD (invCond : BitVec 4) (d : Byte) :
    (formatD invCond d).toNat = 0xE000 + 0x100 * invCond.toNat + d.toNat := by
  rw [formatD, toNat_append_eq_add, toNat_append_eq_add]
  simp only [BitVec.toNat_ofNat]
  omega

/-- A word of format D is a branch, selected by its 4-bit condition (R77, R86). -/
theorem decodeWord_formatD (invCond : BitVec 4) (d : Byte) :
    decodeWord (formatD invCond d) = decodeBranch invCond d := by
  simp [decodeWord, decodeWith]

/-- The condition codes the decoder reads are those of the assembler's mnemonics (R87, R191). -/
theorem decodeBranch_invCondBits (inv : Bool) (c : Cond) (d : Byte) :
    decodeBranch (invCondBits inv c) d = asmBranch inv c d := by
  cases inv <;> cases c <;> rfl

/-- A branch's word written as a number (R190). -/
theorem decode_branch_word (inv : Bool) (c : Cond) (d : Byte) :
    decode params (BitVec.ofNat 16 (0xE000 + 0x100 * (invCondBits inv c).toNat + d.toNat)) =
      some (asmBranch inv c d) := by
  rw [decode_params, ofNat_eq_of_toNat (toNat_formatD _ d), decodeWord_formatD, decodeBranch_invCondBits]

/-! ### Tests -/

/-- The base test of R191, as a statement about the flags of the state. -/
def BaseHolds (s : State) : Cond → Prop
  | .lt => s.flag params .minus = true ∧ ¬ s.flag params .zero = true
  | .gt => ¬ s.flag params .minus = true ∧ ¬ s.flag params .zero = true
  | .eq => s.flag params .zero = true
  | .ca => s.flag params .carry = true
  | .mi => s.flag params .minus = true
  | .xt1 => s.flag params .xtra1 = true
  | .xt2 => s.flag params .xtra2 = true
  | .xt3 => s.flag params .xtra3 = true

/-- The test of a branch: `inv` is a plain negation of the base test (R191). -/
def TestHolds (s : State) : Bool → Cond → Prop
  | false, c => BaseHolds s c
  | true, c => ¬ BaseHolds s c

theorem baseTest_iff (s : State) (c : Cond) :
    baseTest params.flagBit s.flags c = true ↔ BaseHolds s c := by
  cases c with
  | lt | gt => simp [baseTest, BaseHolds, State.flag]
  | eq | ca | mi | xt1 | xt2 | xt3 => rfl

theorem branchTest_iff (s : State) (inv : Bool) (c : Cond) :
    branchTest params.flagBit s.flags inv c = true ↔ TestHolds s inv c := by
  cases inv with
  | false => simp [branchTest, TestHolds, baseTest_iff]
  | true => simp [branchTest, TestHolds, ← baseTest_iff]

/-! ### The end of a branch -/

/-- Every branch is branchOp of its `inv` and its base condition, so it ends in at most one write, of pc (R190). -/
theorem exec_asmBranch (inv : Bool) (c : Cond) (d : Byte) (s : State) :
    exec (asmBranch inv c d) s =
      .next (s.settle params (if branchTest params.flagBit s.flags inv c then [(regAddr .pc, d)] else [])) := by
  cases inv <;> cases c <;> exact branchOp_params _ _ d s

/-- A jump that is taken ends at its target. -/
theorem settle_jump_pc (s : State) (d : Byte) : (s.settle params [(regAddr .pc, d)]).pc = d := by
  have hcell := settle_one_cell s (regAddr .pc) d
  rwa [cell_regAddr, reg_pc] at hcell

/-- A branch completes in every state; it changes no cell but pc, which is the target if the test holds and advances
if not (R190, R38). -/
theorem exec_asmBranch_next (inv : Bool) (c : Cond) (d : Byte) (s : State) :
    ∃ t, exec (asmBranch inv c d) s = .next t ∧ SameBut [regAddr .pc] s t ∧
      (TestHolds s inv c → t.pc = d) ∧ (¬ TestHolds s inv c → t.pc = s.pc + params.pcStep) := by
  rw [exec_asmBranch, ← branchTest_iff]
  refine ⟨_, rfl, sameBut_settle s _ _ ?_ (by simp), fun htaken => ?_, fun hnot => ?_⟩
  · split <;> simp
  · rw [if_pos htaken, settle_jump_pc]
  · rw [if_neg hnot, settle_nil, advance_pc]

/-- Settles O45: each row is the branch of one `inv` and one base condition. -/
theorem branchesFollowTheirTests : Obligations.BranchesFollowTheirTests := by
  intro d s minus zero carry xtra1 xtra2 xtra3 row
  have hrow (inv : Bool) (c : Cond) :
      row (0xE000 + 0x100 * (invCondBits inv c).toNat) (asmBranch inv c d) (TestHolds s inv c) :=
    ⟨decode_branch_word inv c d, exec_asmBranch_next inv c d s⟩
  exact ⟨hrow false .lt, hrow false .gt, hrow false .eq, hrow false .ca, hrow false .mi, hrow false .xt1,
    hrow false .xt2, hrow false .xt3, hrow true .lt, hrow true .gt, hrow true .eq, hrow true .ca, hrow true .mi,
    hrow true .xt1, hrow true .xt2, hrow true .xt3⟩

end Sys2Proof.Proofs.Branch
end

section
/-! The two directions of the round trip between words and instructions (R75 to R93): what the decoder answers for the
encoding of each instruction, and that every word is a word of one of the five formats, which the encoder gives back
with its unused bits cleared. -/

namespace Sys2Proof.Proofs.RoundTrip

open Sys2Proof Sys2Proof.Config Sys2Proof.Machine Sys2Proof.Safety Sys2Proof.Proofs.Encoding Sys2Proof.Proofs.Flags
  Sys2Proof.Proofs.Branch Sys2Proof.Proofs.MovLoadStore

/-! ### From the instruction to the word and back -/

/-- The fields of format E under the default layout (R88, D15). -/
theorem decodeFormatE_default (w : Word) :
    decodeFormatE mulLayoutDefault w =
      decodeMul (w.getLsbD 11) (GReg.ofBits (w.extractLsb' 9 2)) (w.getLsbD 8) (w.extractLsb' 0 8) := rfl

/-- A word of format E is read field by field (R88, R89). -/
theorem decodeWord_formatE (sg sel : Bool) (ms : BitVec 2) (e : Byte) :
    decodeWord (formatE mulLayoutDefault sg ms sel e) = decodeMul sg (GReg.ofBits ms) sel e := by
  have hop : decodeWord (formatE mulLayoutDefault sg ms sel e) =
      decodeFormatE mulLayoutDefault (formatE mulLayoutDefault sg ms sel e) := by
    simp [decodeWord, decodeWith, params]
  rw [hop, decodeFormatE_default, formatE_sg, formatE_sel, formatE_ms, formatE_e]

/-- A register index written in eight bits is the register form's (R89). -/
theorem decodeMul_reg (sg : Bool) (ms : GReg) (r : Reg) : decodeMul sg ms false (0#5 ++ r.bits) = .mulReg sg ms r := by
  cases r <;> rfl

theorem decodeMul_reserved (sg : Bool) (ms : GReg) {e : Byte} (he : 8 ≤ e.toNat) :
    decodeMul sg ms false e = .mulReserved sg ms e := by
  simp [decodeMul, he]

@[simp] theorem decodeStoring_loc_bits (cell : Loc → Instr) (reserved : Byte → Instr) (l : Loc) :
    decodeStoring cell reserved l.bits.1 l.bits.2 = cell l := by
  simp [decodeStoring]

theorem decodeWord_encode {i : Instr} (h : i.wellFormed = true) : decodeWord (encode i) = i := by
  cases i with
  | load0 | add | sub | and | or | xor | cmp | load1 | loop | store0 | store1 | swap =>
    simp [encode, encodeWith, decodeWord, decodeWith]
  | store0Reserved | store1Reserved | swapReserved =>
    simp [encode, encodeWith, decodeWord, decodeWith, decodeStoring, Loc.ofBits]
  | shlN | shrN | rolN | rorN | rolc | rorc | shlCr | shrCr | rolCr | rorCr | adc | sbm | neg | loadro
  | unary6Reserved | unary7Reserved =>
    exact (decodeWord_formatB ..).trans (by simp [decodeUnary])
  | setflags => exact decodeWord_formatC ..
  | blt | bgt | beq | bca | bmi | bxt1 | bxt2 | bxt3 | bgte | blte | bne | bnc | bnm | bnx1 | bnx2 | bnx3 =>
    exact decodeWord_formatD ..
  | mulConst => exact (decodeWord_formatE ..).trans (by simp [decodeMul])
  | mulReg => exact (decodeWord_formatE ..).trans (by simp [decodeMul_reg])
  | mulReserved sg ms e =>
    have he : 8 ≤ e.toNat := by simpa [Instr.wellFormed] using h
    exact (decodeWord_formatE ..).trans (by simp [decodeMul_reserved, he])

/-- Settles O1: the fields the encoder writes are those the decoder reads, format by format. -/
theorem encodeThenDecodeReturnsTheInstruction : Obligations.EncodeThenDecodeReturnsTheInstruction :=
  fun _ h => congrArg some (decodeWord_encode h)

/-! ### Every word is a word of one format -/

/-- The five formats cover the 16-bit words (R77). -/
theorem word_cases (w : Word) :
    (∃ op b cc d, op.toNat < 12 ∧ w = formatA op b cc d) ∨
    (∃ b xx sub arg, w = formatB b xx sub arg) ∨
    (∃ mask val, w = formatC mask val) ∨
    (∃ invCond d, w = formatD invCond d) ∨
    (∃ sg ms sel e, w = formatE mulLayoutDefault sg ms sel e) := by
  have hfield (start len : Nat) : (w.extractLsb' start len).toNat = w.toNat / 2 ^ start % 2 ^ len := by
    rw [BitVec.extractLsb'_toNat, Nat.shiftRight_eq_div_pow]
  have hbit (i : Nat) : (w.getLsbD i).toNat = w.toNat / 2 ^ i % 2 := by
    rw [BitVec.getLsbD, Nat.toNat_testBit]
  have hlt := w.isLt
  rcases Nat.lt_or_ge (w.toNat / 0x1000) 12 with hA | hop
  · exact .inl ⟨w.extractLsb' 12 4, w.extractLsb' 10 2, w.extractLsb' 8 2, w.extractLsb' 0 8,
      by rw [hfield]; omega, BitVec.eq_of_toNat_eq (by rw [toNat_formatA]; simp only [hfield]; omega)⟩
  obtain hB | hC | hD | hE : w.toNat / 0x1000 = 12 ∨ w.toNat / 0x1000 = 13 ∨ w.toNat / 0x1000 = 14 ∨
      w.toNat / 0x1000 = 15 := by omega
  · exact .inr <| .inl ⟨w.extractLsb' 10 2, w.extractLsb' 8 2, w.extractLsb' 4 4, w.extractLsb' 0 4,
      BitVec.eq_of_toNat_eq (by rw [toNat_formatB]; simp only [hfield]; omega)⟩
  · exact .inr <| .inr <| .inl ⟨w.extractLsb' 6 6, w.extractLsb' 0 6,
      BitVec.eq_of_toNat_eq (by rw [toNat_formatC]; simp only [hfield]; omega)⟩
  · exact .inr <| .inr <| .inr <| .inl ⟨w.extractLsb' 8 4, w.extractLsb' 0 8,
      BitVec.eq_of_toNat_eq (by rw [toNat_formatD]; simp only [hfield]; omega)⟩
  · exact .inr <| .inr <| .inr <| .inr ⟨w.getLsbD 11, w.extractLsb' 9 2, w.getLsbD 8, w.extractLsb' 0 8,
      BitVec.eq_of_toNat_eq (by rw [toNat_formatE]; simp only [hfield, hbit]; omega)⟩

/-! ### From the word to the instruction and back -/

/-- The four source types (R80). -/
theorem sourceType_cases (cc : BitVec 2) : cc = 0 ∨ cc = 1 ∨ cc = 2 ∨ cc = 3 := by
  revert cc; decide

@[simp] theorem src_bits_ofBits (cc : BitVec 2) (d : Byte) : (Src.ofBits cc d).bits = (cc, d) := by
  rcases sourceType_cases cc with rfl | rfl | rfl | rfl <;> rfl

/-- The argument field of a `.n` shift comes back but for `arg[2]` of a register count (R84, R92). -/
theorem count_bits_ofBits (arg : BitVec 4) :
    (Count.ofBits arg).bits = arg &&& ~~~(if arg.getLsbD 3 then 4#4 else 0#4) := by
  revert arg; decide

/-- A store or a swap is encoded with the source type and the data it was decoded from, type 00 as its reserved row. -/
theorem encode_decodeStoring {cell : Loc → Instr} {reserved : Byte → Instr} {op : BitVec 4} {b : BitVec 2}
    (hcell : ∀ l, encode (cell l) = formatA op b l.bits.1 l.bits.2)
    (hreserved : ∀ d, encode (reserved d) = formatA op b 0 d) (cc : BitVec 2) (d : Byte) :
    encode (decodeStoring cell reserved cc d) = formatA op b cc d := by
  rcases sourceType_cases cc with rfl | rfl | rfl | rfl
  · exact hreserved d
  · exact hcell (.abs d)
  · exact hcell (.r0Rel d)
  · exact hcell (.r1Rel d)

/-- Format A has no unused bit: its words come back whole. -/
theorem encode_decodeWord_formatA {op : BitVec 4} (hop : op.toNat < 12) (b cc : BitVec 2) (d : Byte) :
    encode (decodeWord (formatA op b cc d)) = formatA op b cc d := by
  obtain ⟨hload0, hstore0, hadd, hsub, hand, hor, hxor, hcmp, hload1, hstore1, hswap, hloop⟩ :=
    decodeWord_formatA b cc d
  have h : ∀ op : BitVec 4, op.toNat < 12 → op = 0 ∨ op = 1 ∨ op = 2 ∨ op = 3 ∨ op = 4 ∨ op = 5 ∨ op = 6 ∨ op = 7 ∨
      op = 8 ∨ op = 9 ∨ op = 10 ∨ op = 11 := by decide
  rcases h op hop with rfl | rfl | rfl | rfl | rfl | rfl | rfl | rfl | rfl | rfl | rfl | rfl
  · rw [hload0]; simp [encode, encodeWith]
  · rw [hstore0]; exact encode_decodeStoring (by simp [encode, encodeWith]) (by simp [encode, encodeWith]) cc d
  · rw [hadd]; simp [encode, encodeWith]
  · rw [hsub]; simp [encode, encodeWith]
  · rw [hand]; simp [encode, encodeWith]
  · rw [hor]; simp [encode, encodeWith]
  · rw [hxor]; simp [encode, encodeWith]
  · rw [hcmp]; simp [encode, encodeWith]
  · rw [hload1]; simp [encode, encodeWith]
  · rw [hstore1]; exact encode_decodeStoring (by simp [encode, encodeWith]) (by simp [encode, encodeWith]) cc d
  · rw [hswap]; exact encode_decodeStoring (by simp [encode, encodeWith]) (by simp [encode, encodeWith]) cc d
  · rw [hloop]; simp [encode, encodeWith]

/-- The bits of `XX` without a use (R92). -/
def unusedXX (sub : BitVec 4) : BitVec 2 := if sub = 6 ∨ sub = 7 then 0 else 3

/-- The bits of `arg` without a use (R92). -/
def unusedArg (sub arg : BitVec 4) : BitVec 4 :=
  if sub.toNat < 4 then (if arg.getLsbD 3 then 4 else 0) else if sub = 6 ∨ sub = 7 then 0 else 15

theorem formatB_getLsbD_three (b xx : BitVec 2) (sub arg : BitVec 4) :
    (formatB b xx sub arg).getLsbD 3 = arg.getLsbD 3 := by
  conv_rhs => rw [← formatB_arg sub arg b xx, BitVec.getLsbD_extractLsb']
  rfl

theorem unusedBits_formatB (b xx : BitVec 2) (sub arg : BitVec 4) :
    unusedBits (formatB b xx sub arg) = 0#4 ++ (0#2 ++ (unusedXX sub ++ (0#4 ++ unusedArg sub arg))) := by
  simp only [unusedBits, formatB_op, formatB_sub, formatB_getLsbD_three, if_true, unusedXX, unusedArg]
  generalize arg.getLsbD 3 = x
  revert sub x; decide

/-- A word of another opcode has no unused bit (R92). -/
theorem unusedBits_of_op_ne {w : Word} (h : w.extractLsb' 12 4 ≠ 12#4) : unusedBits w = 0#16 := by
  simp [unusedBits, h]

theorem append_and_not {v w : Nat} (x m : BitVec v) (y n : BitVec w) :
    (x ++ y) &&& ~~~(m ++ n) = (x &&& ~~~m) ++ (y &&& ~~~n) := by
  rw [BitVec.not_append, BitVec.and_append]

/-- Clearing the unused bits of a word of format B, field by field. -/
theorem formatB_and_not_unusedBits (b xx : BitVec 2) (sub arg : BitVec 4) :
    formatB b xx sub arg &&& ~~~(unusedBits (formatB b xx sub arg)) =
      formatB b (xx &&& ~~~(unusedXX sub)) sub (arg &&& ~~~(unusedArg sub arg)) := by
  rw [unusedBits_formatB]
  refine (append_and_not ..).trans ?_
  rw [append_and_not, append_and_not, append_and_not]
  simp only [formatB, BitVec.not_zero, BitVec.and_allOnes]

/-- The sixteen values of a 4-bit field. -/
theorem nibble_cases (sub : BitVec 4) : sub = 0 ∨ sub = 1 ∨ sub = 2 ∨ sub = 3 ∨ sub = 4 ∨ sub = 5 ∨ sub = 6 ∨ sub = 7 ∨
    sub = 8 ∨ sub = 9 ∨ sub = 10 ∨ sub = 11 ∨ sub = 12 ∨ sub = 13 ∨ sub = 14 ∨ sub = 15 := by
  revert sub; decide

theorem encode_decodeUnary (b xx : BitVec 2) (sub arg : BitVec 4) :
    encode (decodeUnary (GReg.ofBits b) xx sub arg) =
      formatB b (xx &&& ~~~(unusedXX sub)) sub (arg &&& ~~~(unusedArg sub arg)) := by
  have hxx : xx &&& 3#2 = xx := by revert xx; decide
  have harg : arg &&& 15#4 = arg := by revert arg; decide
  rcases nibble_cases sub with
    rfl | rfl | rfl | rfl | rfl | rfl | rfl | rfl | rfl | rfl | rfl | rfl | rfl | rfl | rfl | rfl <;>
    simp [decodeUnary, encode, encodeWith, unusedXX, unusedArg, count_bits_ofBits, hxx, harg]

theorem encode_decodeBranch (invCond : BitVec 4) (d : Byte) : encode (decodeBranch invCond d) = formatD invCond d := by
  rcases nibble_cases invCond with
    rfl | rfl | rfl | rfl | rfl | rfl | rfl | rfl | rfl | rfl | rfl | rfl | rfl | rfl | rfl | rfl <;>
    rfl

/-- The multiplier field comes back from each of the three forms of mul. -/
theorem encode_decodeMul (sg sel : Bool) (ms : BitVec 2) (e : Byte) :
    encode (decodeMul sg (GReg.ofBits ms) sel e) = formatE mulLayoutDefault sg ms sel e := by
  cases sel with
  | true => simp [decodeMul, encode, encodeWith, params]
  | false =>
    by_cases he : e.toNat < 8
    · have hindex : ∀ e : Byte, e.toNat < 8 → 0#5 ++ e.extractLsb' 0 3 = e := by decide
      simp [decodeMul, encode, encodeWith, params, he, hindex]
    · simp [decodeMul, encode, encodeWith, params, he]

/-- Decoding a word and encoding the instruction gives the word with its unused bits cleared. -/
theorem encode_decodeWord (w : Word) : encode (decodeWord w) = w &&& ~~~(unusedBits w) := by
  have hwhole {w : Word} (h : w.extractLsb' 12 4 ≠ 12#4) : w = w &&& ~~~(unusedBits w) := by
    rw [unusedBits_of_op_ne h, BitVec.not_zero, BitVec.and_allOnes]
  rcases word_cases w with ⟨op, b, cc, d, hop, rfl⟩ | ⟨b, xx, sub, arg, rfl⟩ | ⟨mask, val, rfl⟩ | ⟨invCond, d, rfl⟩ |
    ⟨sg, ms, sel, e, rfl⟩
  · have hne : op ≠ 12#4 := by rintro rfl; exact absurd hop (by decide)
    exact (encode_decodeWord_formatA hop b cc d).trans (hwhole (by simpa using hne))
  · rw [decodeWord_formatB, encode_decodeUnary, formatB_and_not_unusedBits]
  · rw [decodeWord_formatC]
    exact hwhole (by simp : (formatC mask val).extractLsb' 12 4 ≠ 12#4)
  · rw [decodeWord_formatD, encode_decodeBranch]
    exact hwhole (by simp)
  · rw [decodeWord_formatE, encode_decodeMul]
    exact hwhole (by simp)

theorem decodeMul_wellFormed (sg sel : Bool) (ms : GReg) (e : Byte) : (decodeMul sg ms sel e).wellFormed = true := by
  cases sel with
  | true => rfl
  | false =>
    by_cases he : e.toNat < 8
    · simp [decodeMul, he, Instr.wellFormed]
    · simp [decodeMul, he, Instr.wellFormed, Nat.not_lt.1 he]

/-- Only opcode 15 has an ill-formed instruction. -/
theorem wellFormed_of_op_ne {i : Instr} (h : (encode i).extractLsb' 12 4 ≠ 15#4) : i.wellFormed = true := by
  cases i with
  | mulReserved sg ms e => exact absurd (Laws.OpcodeField.mulReserved sg ms e) h
  | _ => rfl

theorem decodeWord_wellFormed (w : Word) : (decodeWord w).wellFormed = true := by
  rcases word_cases w with ⟨op, b, cc, d, hop, rfl⟩ | ⟨b, xx, sub, arg, rfl⟩ | ⟨mask, val, rfl⟩ | ⟨invCond, d, rfl⟩ |
    ⟨sg, ms, sel, e, rfl⟩
  · refine wellFormed_of_op_ne ?_
    rw [encode_decodeWord_formatA hop, formatA_op]
    rintro rfl
    exact absurd hop (by decide)
  · refine wellFormed_of_op_ne ?_
    rw [decodeWord_formatB, encode_decodeUnary, formatB_op]
    decide
  · rw [decodeWord_formatC]
    rfl
  · refine wellFormed_of_op_ne ?_
    rw [decodeWord_formatD, encode_decodeBranch, formatD_op]
    decide
  · rw [decodeWord_formatE, decodeMul_wellFormed]

/-- Settles O2: every word is a word of one of the five formats, whose fields the encoder writes back. -/
theorem everyWordDecodesAndEncodesBack : Obligations.EveryWordDecodesAndEncodesBack :=
  fun w => ⟨decodeWord w, decode_params w, decodeWord_wellFormed w, encode_decodeWord w⟩

/-! ### Unused bits -/

/-- A word decodes as the word with its unused bits cleared does. -/
theorem decodeWord_and_not_unusedBits (w : Word) : decodeWord (w &&& ~~~(unusedBits w)) = decodeWord w := by
  rw [← encode_decodeWord, decodeWord_encode (decodeWord_wellFormed w)]

/-- Which bits have no use does not depend on bits that have none: they lie outside the opcode and the sub-op, and a
count keeps `arg[3]`. -/
theorem unusedBits_xor {w m : Word} (hm : m &&& unusedBits w = m) : unusedBits (w ^^^ m) = unusedBits w := by
  have hmask : (unusedBits w).extractLsb' 12 4 = 0#4 ∧ (unusedBits w).extractLsb' 4 4 = 0#4 := by
    simp only [unusedBits]
    split_ifs <;> decide
  have hop : m.extractLsb' 12 4 = 0#4 := by rw [← hm, BitVec.extractLsb'_and, hmask.1, BitVec.and_zero]
  have hsub : m.extractLsb' 4 4 = 0#4 := by rw [← hm, BitVec.extractLsb'_and, hmask.2, BitVec.and_zero]
  have hcount (h4 : (w.extractLsb' 4 4).toNat < 4) : m.getLsbD 3 = false := by
    rw [← hm, BitVec.getLsbD_and, unusedBits]
    simp only [h4, if_true]
    split_ifs <;> simp
  have hxor (start : Nat) (h : m.extractLsb' start 4 = 0#4) :
      (w ^^^ m).extractLsb' start 4 = w.extractLsb' start 4 := by
    rw [BitVec.extractLsb'_xor, h, BitVec.xor_zero]
  simp only [unusedBits, hxor 12 hop, hxor 4 hsub]
  split_ifs with h1 h2 <;> simp_all

theorem xor_and_not_of_and_eq {n : Nat} {x m u : BitVec n} (h : m &&& u = m) :
    (x ^^^ m) &&& ~~~u = x &&& ~~~u := by
  rw [← h]
  ext i hi
  simp only [BitVec.getElem_and, BitVec.getElem_xor, BitVec.getElem_not]
  cases u[i] <;> simp

/-- Settles O4: both words have the same word with its unused bits cleared. -/
theorem unusedBitsDoNotChangeTheInstruction : Obligations.UnusedBitsDoNotChangeTheInstruction := by
  intro w m hm
  have hclear : (w ^^^ m) &&& ~~~(unusedBits (w ^^^ m)) = w &&& ~~~(unusedBits w) := by
    rw [unusedBits_xor hm, xor_and_not_of_and_eq hm]
  rw [decode_params, decode_params, ← decodeWord_and_not_unusedBits w, ← hclear, decodeWord_and_not_unusedBits]

/-- Settles O8: fourteen words, each decoded. -/
theorem sampleWordsDecode : Obligations.SampleWordsDecode := by
  unfold Obligations.SampleWordsDecode
  decide

/-- Settles O7: each word is the format E word of its fields. -/
theorem mulWordsDecode : Obligations.MulWordsDecode := by
  intro sg ms e word
  have hword (sel : Bool) : decode params (word sel.toNat) = some (decodeMul sg ms sel e) := by
    simp only [word]
    rw [decode_params, ofNat_eq_of_toNat (toNat_formatE sg sel ms.bits e), decodeWord_formatE, gReg_ofBits_bits]
  refine ⟨hword true, ?_, fun he => ?_⟩
  · rintro r rfl
    rw [← decodeMul_reg]
    have hindex : regAddr r = 0#5 ++ r.bits := by cases r <;> rfl
    exact hindex ▸ hword false
  · rw [← decodeMul_reserved sg ms he]
    exact hword false

/-! ### Reserved words -/

theorem formatA_and (op op' : BitVec 4) (b b' cc cc' : BitVec 2) (d d' : Byte) :
    formatA op b cc d &&& formatA op' b' cc' d' = formatA (op &&& op') (b &&& b') (cc &&& cc') (d &&& d') := by
  refine BitVec.and_append.trans ?_
  rw [BitVec.and_append, BitVec.and_append, formatA]

theorem formatA_inj {op op' : BitVec 4} {b b' cc cc' : BitVec 2} {d d' : Byte} :
    formatA op b cc d = formatA op' b' cc' d' ↔ op = op' ∧ b = b' ∧ cc = cc' ∧ d = d' := by
  refine ⟨fun h => ⟨?_, ?_, ?_, ?_⟩, ?_⟩
  · simpa using congrArg (BitVec.extractLsb' 12 4) h
  · simpa using congrArg (BitVec.extractLsb' 10 2) h
  · simpa using congrArg (BitVec.extractLsb' 8 2) h
  · simpa using congrArg (BitVec.extractLsb' 0 8) h
  · rintro ⟨rfl, rfl, rfl, rfl⟩
    rfl

theorem isReserved_decodeStoring {cell : Loc → Instr} {reserved : Byte → Instr}
    (hcell : ∀ l, isReserved (cell l) = false) (hreserved : ∀ d, isReserved (reserved d) = true) (cc : BitVec 2)
    (d : Byte) : isReserved (decodeStoring cell reserved cc d) = true ↔ cc = 0#2 := by
  rcases sourceType_cases cc with rfl | rfl | rfl | rfl <;> simp [decodeStoring, Loc.ofBits, hcell, hreserved]

theorem isReserved_decodeUnary (b : GReg) (xx : BitVec 2) (sub arg : BitVec 4) :
    isReserved (decodeUnary b xx sub arg) = true ↔ sub = 6#4 ∨ sub = 7#4 := by
  rcases nibble_cases sub with
    rfl | rfl | rfl | rfl | rfl | rfl | rfl | rfl | rfl | rfl | rfl | rfl | rfl | rfl | rfl | rfl <;>
    simp [decodeUnary, isReserved]

theorem isReserved_decodeBranch (invCond : BitVec 4) (d : Byte) : isReserved (decodeBranch invCond d) = false := by
  rcases nibble_cases invCond with
    rfl | rfl | rfl | rfl | rfl | rfl | rfl | rfl | rfl | rfl | rfl | rfl | rfl | rfl | rfl | rfl <;>
    rfl

theorem isReserved_decodeMul (sg sel : Bool) (ms : GReg) (e : Byte) :
    isReserved (decodeMul sg ms sel e) = true ↔ sel = false ∧ 8 ≤ e.toNat := by
  cases sel with
  | true => simp [decodeMul, isReserved]
  | false => by_cases he : e.toNat < 8 <;> simp [decodeMul, he, isReserved, Nat.not_le.2, Nat.not_lt.1]

/-- A field of the low byte, whatever the format. -/
theorem formatA_low (op : BitVec 4) (b cc : BitVec 2) (d : Byte) {start len : Nat} (h : start + len ≤ 8) :
    (formatA op b cc d).extractLsb' start len = d.extractLsb' start len :=
  drop_high (by omega) (drop_high (by omega) (drop_high h rfl))

/-- The bit of format E that selects the constant multiplier. -/
theorem formatA_getLsbD_eight (op : BitVec 4) (b cc : BitVec 2) (d : Byte) :
    (formatA op b cc d).getLsbD 8 = cc.getLsbD 0 := by
  conv_rhs => rw [← formatA_cc op b cc d, BitVec.getLsbD_extractLsb']
  rfl

/-- The reserved rows of R93, field by field: source type 00 of a store or a swap, sub-ops 6 and 7, and a register index
above 7. -/
theorem isReserved_decodeWord_formatA (op : BitVec 4) (b cc : BitVec 2) (d : Byte) :
    isReserved (decodeWord (formatA op b cc d)) = true ↔
      ((op = 1#4 ∨ op = 9#4 ∨ op = 10#4) ∧ cc = 0#2) ∨
      (op = 12#4 ∧ (d.extractLsb' 4 4 = 6#4 ∨ d.extractLsb' 4 4 = 7#4)) ∨
      (op = 15#4 ∧ cc.getLsbD 0 = false ∧ 8 ≤ d.toNat) := by
  have hmul (w : Word) : isReserved (decodeFormatE params.mulLayout w) = true ↔
      w.getLsbD 8 = false ∧ 8 ≤ (w.extractLsb' 0 8).toNat := isReserved_decodeMul ..
  obtain ⟨hload0, hstore0, hadd, hsub, hand, hor, hxor, hcmp, hload1, hstore1, hswap, hloop⟩ :=
    decodeWord_formatA b cc d
  rcases nibble_cases op with
    rfl | rfl | rfl | rfl | rfl | rfl | rfl | rfl | rfl | rfl | rfl | rfl | rfl | rfl | rfl | rfl
  · rw [hload0]; simp [isReserved]
  · rw [hstore0, isReserved_decodeStoring (by intro; rfl) (by intro; rfl)]; simp
  · rw [hadd]; simp [isReserved]
  · rw [hsub]; simp [isReserved]
  · rw [hand]; simp [isReserved]
  · rw [hor]; simp [isReserved]
  · rw [hxor]; simp [isReserved]
  · rw [hcmp]; simp [isReserved]
  · rw [hload1]; simp [isReserved]
  · rw [hstore1, isReserved_decodeStoring (by intro; rfl) (by intro; rfl)]; simp
  · rw [hswap, isReserved_decodeStoring (by intro; rfl) (by intro; rfl)]; simp
  · rw [hloop]; simp [isReserved]
  · simp [decodeWord, decodeWith, isReserved_decodeUnary, formatA_low]
  · simp [decodeWord, decodeWith, isReserved]
  · simp [decodeWord, decodeWith, isReserved_decodeBranch]
  · have hrow : decodeWord (formatA 15 b cc d) = decodeFormatE params.mulLayout (formatA 15 b cc d) := by
      simp [decodeWord, decodeWith]
    rw [hrow, hmul, formatA_getLsbD_eight, formatA_d]
    simp

theorem and_fifteen (op : BitVec 4) : op &&& 15 = op := by revert op; decide

theorem and_three (cc : BitVec 2) : cc &&& 3 = cc := by revert cc; decide

theorem and_one_eq_zero_iff (cc : BitVec 2) : cc &&& 1 = 0 ↔ cc.getLsbD 0 = false := by revert cc; decide

theorem and_high_nibble (d : Byte) : d &&& 0xF0 = d.extractLsb' 4 4 ++ 0#4 := by revert d; decide

theorem and_index_high_eq_zero_iff (d : Byte) : d &&& 0xF8 = 0 ↔ d.toNat < 8 := by revert d; decide

section Patterns

variable (op : BitVec 4) (b cc : BitVec 2) (d : Byte)

/-- The mask of the opcode and the source type. -/
theorem formatA_and_type (op' : BitVec 4) :
    formatA op b cc d &&& 0xF300#16 = formatA op' 0 0 0 ↔ op = op' ∧ cc = 0#2 := by
  rw [← (by decide : formatA 15 0 3 0 = 0xF300#16), formatA_and, formatA_inj, and_fifteen, and_three]
  simp

/-- The mask of the opcode and the sub-op. -/
theorem formatA_and_subOp (sub : BitVec 4) :
    formatA op b cc d &&& 0xF0F0#16 = formatA 12 0 0 (sub ++ 0#4) ↔ op = 12#4 ∧ d.extractLsb' 4 4 = sub := by
  rw [← (by decide : formatA 15 0 0 0xF0 = 0xF0F0#16), formatA_and, formatA_inj, and_fifteen, and_high_nibble,
    BitVec.append_left_inj]
  simp

/-- The mask of the opcode and the selection of format E. -/
theorem formatA_and_selection :
    formatA op b cc d &&& 0xF100#16 = formatA 15 0 0 0 ↔ op = 15#4 ∧ cc.getLsbD 0 = false := by
  rw [← (by decide : formatA 15 0 1 0 = 0xF100#16), formatA_and, formatA_inj, and_fifteen, and_one_eq_zero_iff]
  simp

/-- The mask of the upper bits of a register index of format E. -/
theorem formatA_and_index : formatA op b cc d &&& 0x00F8#16 = formatA 0 0 0 0 ↔ d.toNat < 8 := by
  rw [← (by decide : formatA 0 0 0 0xF8 = 0x00F8#16), formatA_and, formatA_inj, and_index_high_eq_zero_iff]
  simp

end Patterns

/-- Settles O3: each mask keeps whole fields, and its pattern fixes them as the reserved row has them. -/
theorem reservedWordsAreExactlyThePatterns : Obligations.ReservedWordsAreExactlyThePatterns := by
  intro w i hi
  obtain rfl : decodeWord w = i := Option.some.inj hi
  obtain ⟨b, cc, d, hw⟩ := exists_eq_formatA (w := w) (op := w.extractLsb' 12 4)
    (by rw [BitVec.extractLsb'_toNat, Nat.shiftRight_eq_div_pow]; omega)
  generalize w.extractLsb' 12 4 = op at hw
  clear hi
  subst hw
  rw [isReserved_decodeWord_formatA,
    ← (by decide : formatA 1 0 0 0 = 0x1000#16), ← (by decide : formatA 9 0 0 0 = 0x9000#16),
    ← (by decide : formatA 10 0 0 0 = 0xA000#16), ← (by decide : formatA 12 0 0 (6#4 ++ 0#4) = 0xC060#16),
    ← (by decide : formatA 12 0 0 (7#4 ++ 0#4) = 0xC070#16), ← (by decide : formatA 15 0 0 0 = 0xF000#16),
    ← (by decide : formatA 0 0 0 0 = 0#16), formatA_and_type, formatA_and_type, formatA_and_type, formatA_and_subOp,
    formatA_and_subOp, formatA_and_selection, Ne, formatA_and_index, Nat.not_lt]
  tauto

end Sys2Proof.Proofs.RoundTrip
end

section
/-! MUL_LAYOUT (R88, U6): format E under every layout of its four fields that the model admits. -/

namespace Sys2Proof.Proofs.MulLayouts

open Sys2Proof Sys2Proof.Config Sys2Proof.Machine Sys2Proof.Proofs.RoundTrip

/-- The fields of a well-formed layout lie below the opcode and do not meet. -/
structure FieldsApart (l : MulLayout) : Prop where
  sg_lt : l.sg < 12
  ms_lt : l.ms < 11
  sel_lt : l.sel < 12
  e_lt : l.e < 5
  sg_ms : l.sg < l.ms ∨ l.ms + 2 ≤ l.sg
  sg_sel : l.sg ≠ l.sel
  sel_ms : l.sel < l.ms ∨ l.ms + 2 ≤ l.sel
  sg_e : l.sg < l.e ∨ l.e + 8 ≤ l.sg
  ms_e : l.ms + 2 ≤ l.e ∨ l.e + 8 ≤ l.ms
  sel_e : l.sel < l.e ∨ l.e + 8 ≤ l.sel

theorem fieldsApart_of_wellFormed {l : MulLayout} (h : l.wellFormed = true) : FieldsApart l := by
  simp [MulLayout.wellFormed, List.range, List.range.loop] at h
  constructor <;> omega

/-- The bits of the opcode of format E. -/
theorem getLsbD_opcode {i : Nat} (hi : i < 16) : (0xF000#16).getLsbD i = decide (12 ≤ i) := by
  revert i
  decide

/-- Each bit of a word of format E is that of the opcode or of the field it lies in. -/
theorem getLsbD_formatE (l : MulLayout) (sg sel : Bool) (ms : BitVec 2) (e : Byte) {i : Nat} (hi : i < 16) :
    (formatE l sg ms sel e).getLsbD i =
      (decide (12 ≤ i) || (decide (i = l.sg) && sg || decide (l.ms ≤ i) && ms.getLsbD (i - l.ms) ||
        (decide (i = l.sel) && sel || decide (l.e ≤ i) && e.getLsbD (i - l.e)))) := by
  have hbit (p : Nat) : (decide (p ≤ i) && decide (i - p = 0)) = decide (i = p) := by
    rw [Bool.eq_iff_iff, Bool.and_eq_true, decide_eq_true_eq, decide_eq_true_eq, decide_eq_true_eq]
    omega
  have hlow (p : Nat) : (!decide (i < p)) = decide (p ≤ i) := by
    rw [← decide_not]
    exact decide_eq_decide.2 Nat.not_lt
  have hwidth (p : Nat) : decide (i - p < 16) = true := decide_eq_true (by omega)
  simp only [formatE, BitVec.getLsbD_or, getLsbD_opcode hi, BitVec.getLsbD_shiftLeft, BitVec.zeroExtend,
    BitVec.getLsbD_setWidth, BitVec.getLsbD_ofBool, hi, decide_true, Bool.true_and, hwidth,
    ← Bool.and_assoc, hlow, hbit]

/-- A field is not seen outside its bits. -/
theorem field_outside {w : Nat} (x : BitVec w) {p i : Nat} (h : i < p ∨ p + w ≤ i) :
    (decide (p ≤ i) && x.getLsbD (i - p)) = false := by
  rcases h with h | h
  · simp [Nat.not_le.2 h]
  · rw [BitVec.getLsbD_of_ge x _ (by omega), Bool.and_false]

theorem bit_outside (x : Bool) {p i : Nat} (h : i ≠ p) : (decide (i = p) && x) = false := by
  simp [h]

section Fields

variable {l : MulLayout} (h : FieldsApart l) (sg sel : Bool) (ms : BitVec 2) (e : Byte)

theorem extract_op_formatE : (formatE l sg ms sel e).extractLsb' 12 4 = 15#4 := by
  refine BitVec.eq_of_getLsbD_eq fun i hi => ?_
  have hop : ∀ i < 4, (15#4).getLsbD i = true := by decide
  rw [BitVec.getLsbD_extractLsb', getLsbD_formatE l sg sel ms e (by omega), hop i hi]
  simp [hi]

include h

theorem getLsbD_sg_formatE : (formatE l sg ms sel e).getLsbD l.sg = sg := by
  obtain ⟨hsg, hms, hsel, he, hsgms, hsgsel, hselms, hsge, hmse, hsele⟩ := h
  rw [getLsbD_formatE l sg sel ms e (by omega), field_outside ms (by omega), bit_outside sel (by omega),
    field_outside e (by omega)]
  simp [hsg]

theorem getLsbD_sel_formatE : (formatE l sg ms sel e).getLsbD l.sel = sel := by
  obtain ⟨hsg, hms, hsel, he, hsgms, hsgsel, hselms, hsge, hmse, hsele⟩ := h
  rw [getLsbD_formatE l sg sel ms e (by omega), bit_outside sg (by omega), field_outside ms (by omega),
    field_outside e (by omega)]
  simp [hsel]

theorem extract_ms_formatE : (formatE l sg ms sel e).extractLsb' l.ms 2 = ms := by
  obtain ⟨hsg, hms, hsel, he, hsgms, hsgsel, hselms, hsge, hmse, hsele⟩ := h
  refine BitVec.eq_of_getLsbD_eq fun i hi => ?_
  rw [BitVec.getLsbD_extractLsb', getLsbD_formatE l sg sel ms e (by omega), bit_outside sg (by omega),
    bit_outside sel (by omega), field_outside e (by omega)]
  have hop : ¬ 12 ≤ l.ms + i := by omega
  simp [hi, hop]

theorem extract_e_formatE : (formatE l sg ms sel e).extractLsb' l.e 8 = e := by
  obtain ⟨hsg, hms, hsel, he, hsgms, hsgsel, hselms, hsge, hmse, hsele⟩ := h
  refine BitVec.eq_of_getLsbD_eq fun i hi => ?_
  rw [BitVec.getLsbD_extractLsb', getLsbD_formatE l sg sel ms e (by omega), bit_outside sg (by omega),
    field_outside ms (by omega), bit_outside sel (by omega)]
  have hop : ¬ 12 ≤ l.e + i := by omega
  simp [hi, hop]

/-- A word of format E is read field by field under its own layout. -/
theorem decode_formatE :
    decode { params with mulLayout := l } (formatE l sg ms sel e) = some (decodeMul sg (GReg.ofBits ms) sel e) := by
  change some (decodeWith l _) = _
  have hrow : decodeWith l (formatE l sg ms sel e) = decodeFormatE l (formatE l sg ms sel e) := by
    simp [decodeWith, extract_op_formatE]
  rw [hrow, decodeFormatE, getLsbD_sg_formatE h, getLsbD_sel_formatE h, extract_ms_formatE h, extract_e_formatE h]

end Fields

/-- Settles O58: the four fields of a well-formed layout are disjoint, so that each is read as it was written. -/
theorem everyMulLayoutRoundTrips : Obligations.EveryMulLayoutRoundTrips := by
  intro l sg ms e r hl roundTrip
  have hword {i : Instr} (sel : Bool) (e : Byte) (henc : encodeWith l i = formatE l sg ms.bits sel e)
      (hdec : decodeMul sg ms sel e = i) : roundTrip i := by
    refine ⟨?_, henc ▸ extract_op_formatE ..⟩
    rw [henc, decode_formatE (fieldsApart_of_wellFormed hl), gReg_ofBits_bits, hdec]
  exact ⟨hword true e rfl rfl, hword false _ rfl (decodeMul_reg sg ms r),
    fun he => hword false e rfl (decodeMul_reserved sg ms he)⟩

end Sys2Proof.Proofs.MulLayouts
end

section
/-! What every step keeps and depends on: the canonical form, the code space, pc, the frame, and that nothing but the
cells an instruction reads decides what it writes. -/

namespace Sys2Proof.Proofs.Steps

open Sys2Proof Sys2Proof.Config Sys2Proof.Machine Sys2Proof.Safety Sys2Proof.Proofs.RoundTrip

/-! ### One step -/

/-- Settles O9: with the default parameters the fetch never stops. -/
theorem stepRunsTheDecodedInstruction : Obligations.StepRunsTheDecodedInstruction := by
  intro s i hi
  obtain rfl : decodeWord (s.codeCell s.pc) = i := Option.some.inj hi
  exact step_params s

/-- A step that completes ends in the writes its instruction may schedule. -/
theorem step_next {s t : State} (h : step s = .next t) :
    ∃ ws, t = s.settle params ws ∧ Schedules (decodeWord (s.codeCell s.pc)) s ws :=
  exec_next (step_params s ▸ h)

/-- Settles O10: the end of an instruction keeps the form, whatever it writes. -/
theorem everyStepKeepsTheCanonicalForm : Obligations.EveryStepKeepsTheCanonicalForm := by
  intro s t hs h
  obtain ⟨ws, rfl, -⟩ := step_next h
  exact wf_settle params hs ws

/-- Settles O11: reset lists no cell, and a launch takes the image's two lists as they are. -/
theorem resetIsCanonicalWithPcZero : Obligations.ResetIsCanonicalWithPcZero :=
  ⟨rfl, ⟨rfl, wf_reset⟩, fun s _ _ hpc hcode hram => ⟨hpc, wf_launch s hcode hram⟩⟩

/-- A code cell is a matter of the code space alone. -/
theorem codeCell_congr {s t : State} (h : t.code = s.code) (a : Byte) : t.codeCell a = s.codeCell a := by
  simp only [State.codeCell, h]

/-- Settles O12: the writes of an instruction are of data cells. -/
theorem noStepWritesTheCodeSpace : Obligations.NoStepWritesTheCodeSpace := by
  intro s t h
  obtain ⟨ws, rfl, -⟩ := step_next h
  have hcode := settle_code params s ws
  exact ⟨hcode, codeCell_congr hcode⟩

/-- Settles O13: pc is written or advances. -/
theorem pcAdvancesByOneUnlessWritten : Obligations.PcAdvancesByOneUnlessWritten := by
  intro i s t h hpc
  obtain ⟨ws, rfl, -, hws⟩ := exec_next h
  rw [settle_pc s ws (hws hpc)]
  exact BitVec.toNat_add ..

/-- Settles O14: an instruction schedules no write of another cell. -/
theorem onlyTheListedCellsChange : Obligations.OnlyTheListedCellsChange := by
  intro i s t h
  obtain ⟨ws, rfl, hws, -⟩ := exec_next h
  exact sameBut_settle s ws _ hws List.mem_cons_self

/-! ### Reserved words -/

/-- A reserved row has a use for every bit of its word, so that the fault records it whole (R92, R221). -/
theorem encode_decodeWord_of_isReserved {w : Word} (h : isReserved (decodeWord w) = true) :
    encode (decodeWord w) = w := by
  rw [encode_decodeWord]
  suffices hunused : unusedBits w = 0#16 by
    rw [hunused, BitVec.not_zero, BitVec.and_allOnes]
  by_cases hop : w.extractLsb' 12 4 = 12#4
  · have hsub : w.extractLsb' 4 4 = 6#4 ∨ w.extractLsb' 4 4 = 7#4 := by
      simpa [decodeWord, decodeWith, hop, isReserved_decodeUnary] using h
    rcases hsub with hsub | hsub <;> simp [unusedBits, hop, hsub]
  · exact unusedBits_of_op_ne hop

/-- Settles O16: every instruction but the reserved rows ends in writes, which never fault with 256 data cells. -/
theorem everyStepCompletesUnlessReserved : Obligations.EveryStepCompletesUnlessReserved := by
  intro s
  rw [step_params]
  rcases exec_settles_or_reserved (decodeWord (s.codeCell s.pc)) s with ⟨hnot, ws, hexec, -⟩ | ⟨hreserved, hexec⟩
  · rw [if_neg (by simp [hnot])]
    exact ⟨_, hexec⟩
  · rw [if_pos hreserved, hexec, encode_decodeWord_of_isReserved hreserved]

/-! ### What an instruction depends on -/

section Agreement

variable {s t : State}

theorem ea_congr {l : Loc} (h : ∀ a ∈ baseCells l, t.cell a = s.cell a) : t.ea params l = s.ea params l := by
  cases l with
  | abs d => rfl
  | r0Rel d | r1Rel d => simp only [State.ea, peek_params, h _ List.mem_cons_self]

theorem operand_congr {src : Src} (h : ∀ a ∈ srcCells s src, t.cell a = s.cell a) :
    t.operand params src = s.operand params src := by
  cases src with
  | const d => rfl
  | cell l =>
    have hea : t.ea params l = s.ea params l := ea_congr fun a ha => h a (List.mem_cons_of_mem _ ha)
    simp only [State.operand, peek_params, hea, h _ List.mem_cons_self]

theorem count_congr {n : Count} (h : ∀ a ∈ countCells n, t.cell a = s.cell a) :
    t.count params n = s.count params n := by
  cases n with
  | imm n => rfl
  | reg r => simp only [State.count, peek_params, h _ List.mem_cons_self]

theorem reg_congr {r : Reg} (h : t.cell (regAddr r) = s.cell (regAddr r)) : t.reg r = s.reg r := by
  simpa using h

theorem flags_congr (h : t.cell (regAddr .flags) = s.cell (regAddr .flags)) : t.flags = s.flags := by
  simpa using h

theorem cr_congr (h : t.cell (regAddr .cr) = s.cell (regAddr .cr)) : t.cr = s.cr := by
  simpa using h

/-- The instruction schedules the same writes in both states, and they address every cell listed for it. -/
def SameWrites (i : Instr) (s t : State) : Prop :=
  ∃ ws, exec i s = .next (s.settle params ws) ∧ exec i t = .next (t.settle params ws) ∧
    writableCells i t = writableCells i s ∧ ∀ a ∈ writableCells i s, a ∈ ws.map Prod.fst

/-- In states that agree on the cells it reads an instruction schedules the same writes. -/
theorem sameWrites_of_agreement {i : Instr} (hi : isReserved i = false)
    (hcode : ∀ a : Byte, t.codeCell a = s.codeCell a) (hread : ∀ a ∈ readCells i s, t.cell a = s.cell a) :
    SameWrites i s t := by
  unfold SameWrites
  cases i with
  | load0 b src | load1 b src =>
    have hsrc : t.operand params src = s.operand params src := operand_congr hread
    simp only [exec_load0, exec_load1, hsrc, writableCells, true_and]
    exact ⟨_, rfl, rfl, by simp⟩
  | store0 b l | store1 b l =>
    simp only [readCells, List.forall_mem_cons] at hread
    obtain ⟨hb, hbase⟩ := hread
    simp only [exec_store0, exec_store1, ea_congr hbase, hb, reg_congr hb, writableCells, true_and]
    exact ⟨_, rfl, rfl, by simp⟩
  | swap b l =>
    simp only [readCells, List.forall_mem_cons] at hread
    obtain ⟨hb, hcell, hbase⟩ := hread
    simp only [exec_swap, ea_congr hbase, hb, hcell, writableCells, true_and]
    exact ⟨_, rfl, rfl, by simp⟩
  | add b src | sub b src | and b src | or b src | xor b src | loop b src =>
    simp only [readCells, List.forall_mem_cons] at hread
    obtain ⟨hb, hsrc⟩ := hread
    simp only [exec_add, exec_sub, exec_and, exec_or, exec_xor, exec_loop, hb, operand_congr hsrc,
      writableCells, true_and]
    exact ⟨_, rfl, rfl, by simp⟩
  | cmp b src =>
    simp only [readCells, List.forall_mem_cons] at hread
    obtain ⟨hflags, hb, hsrc⟩ := hread
    simp only [exec_cmp, flags_congr hflags, hb, operand_congr hsrc, writableCells, true_and]
    exact ⟨_, rfl, rfl, by simp⟩
  | shlN b n | shrN b n | rolN b n | rorN b n =>
    simp only [readCells, List.forall_mem_cons] at hread
    obtain ⟨hb, hcount⟩ := hread
    simp only [exec_shlN, exec_shrN, exec_rolN, exec_rorN, hb, count_congr hcount, writableCells, true_and]
    exact ⟨_, rfl, rfl, by simp⟩
  | shlCr b | shrCr b | rolCr b | rorCr b =>
    simp only [readCells, List.forall_mem_cons, List.not_mem_nil] at hread
    obtain ⟨hb, hcr, -⟩ := hread
    simp only [exec_shlCr, exec_shrCr, exec_rolCr, exec_rorCr, hb, cr_congr hcr, writableCells, true_and]
    exact ⟨_, rfl, rfl, by simp⟩
  | rolc b | rorc b | adc b | sbm b =>
    simp only [readCells, List.forall_mem_cons] at hread
    obtain ⟨hb, hflags, -⟩ := hread
    simp only [exec_rolc, exec_rorc, exec_adc, exec_sbm, hb, State.flag, flags_congr hflags, writableCells, true_and]
    exact ⟨_, rfl, rfl, by simp⟩
  | neg b | loadro b =>
    simp only [readCells, List.forall_mem_cons] at hread
    obtain ⟨hb, -⟩ := hread
    simp only [exec_neg, exec_loadro, hb, hcode, writableCells, true_and]
    exact ⟨_, rfl, rfl, by simp⟩
  | setflags | blt | bgt | beq | bca | bmi | bxt1 | bxt2 | bxt3 | bgte | blte | bne | bnc | bnm | bnx1 | bnx2 | bnx3 =>
    simp only [readCells, List.forall_mem_cons] at hread
    obtain ⟨hflags, -⟩ := hread
    simp only [exec_setflags, exec_blt, exec_bgt, exec_beq, exec_bca, exec_bmi, exec_bxt1, exec_bxt2, exec_bxt3,
      exec_bgte, exec_blte, exec_bne, exec_bnc, exec_bnm, exec_bnx1, exec_bnx2, exec_bnx3, flags_congr hflags,
      writableCells, true_and]
    exact ⟨_, rfl, rfl, by simp⟩
  | mulConst sg b e =>
    simp only [readCells, List.forall_mem_cons] at hread
    obtain ⟨hb, -⟩ := hread
    simp only [exec_mulConst, hb, writableCells, true_and]
    exact ⟨_, rfl, rfl, by simp⟩
  | mulReg sg b r =>
    simp only [readCells, List.forall_mem_cons] at hread
    obtain ⟨hb, hr, -⟩ := hread
    simp only [exec_mulReg, hb, reg_congr hr, writableCells, true_and]
    exact ⟨_, rfl, rfl, by simp⟩
  | store0Reserved | store1Reserved | swapReserved | unary6Reserved | unary7Reserved | mulReserved => cases hi

/-- Writes leave the same value in a cell they address, and in a cell that held the same. -/
theorem cell_applyWrites_congr {ws : List Write} {a : Byte} (h : t.cell a = s.cell a ∨ a ∈ ws.map Prod.fst) :
    (t.applyWrites ws).cell a = (s.applyWrites ws).cell a := by
  induction ws generalizing s t with
  | nil => exact h.resolve_right List.not_mem_nil
  | cons w ws ih =>
    refine ih ?_
    simp only [cell_setCell]
    by_cases hw : a = w.1
    · simp [hw]
    · rw [if_neg hw, if_neg hw]
      exact h.imp_right fun hmem => (List.mem_cons.1 hmem).resolve_left hw

/-- In states with the same pc the same writes leave the same values in the cells written and in pc. -/
theorem cell_settle_congr (hpc : t.pc = s.pc) (ws : List Write) {a : Byte}
    (ha : a = regAddr .pc ∨ a ∈ ws.map Prod.fst) : (t.settle params ws).cell a = (s.settle params ws).cell a := by
  simp only [State.settle]
  split
  · refine cell_applyWrites_congr (ha.imp_left ?_)
    rintro rfl
    simpa using hpc
  · refine cell_applyWrites_congr (ha.imp_left ?_)
    rintro rfl
    simpa using hpc

end Agreement

/-- Settles O15: the writes are the same, and writes leave the same values wherever they are applied. -/
theorem resultDependsOnlyOnTheCellsRead : Obligations.ResultDependsOnlyOnTheCellsRead := by
  intro i s t s' h hpc hcode hread
  have hi : isReserved i = false := by
    rcases exec_settles_or_reserved i s with ⟨hi, -⟩ | ⟨-, hfault⟩
    · exact hi
    · exact absurd (h.symm.trans hfault) (by simp)
  obtain ⟨ws, hs, ht, hcells, hmem⟩ := sameWrites_of_agreement hi hcode hread
  obtain rfl : s' = s.settle params ws := by simpa [h] using hs
  refine ⟨_, ht, hcells, fun a ha => cell_settle_congr hpc ws ?_⟩
  exact (List.mem_cons.1 ha).imp_right (hmem a)

end Sys2Proof.Proofs.Steps
end

section
/-! Operands (R81, R84), and the instructions that move a value between a register and a data cell: load1, store0,
store1 and swap (R111 to R113, R145). -/

namespace Sys2Proof.Proofs.DataMoves

open Sys2Proof Sys2Proof.Config Sys2Proof.Machine Sys2Proof.Safety Sys2Proof.Proofs.Encoding
  Sys2Proof.Proofs.MovLoadStore

/-! ### Registers and operands -/

/-- Settles O17: the first eight addresses are the registers' own. -/
theorem registersAreDataCells : Obligations.RegistersAreDataCells :=
  fun s r a c v => ⟨cell_regAddr s r, setCell_regAddr s r v, cell_setCell s a c v⟩

/-- An operand in a data cell is that cell's content: with PC_READ_OFFSET = 0 also in cell 0x06 (D3). -/
theorem operand_cell (s : State) (l : Loc) : s.operand params (.cell l) = s.cell (s.ea params l) :=
  peek_params ..

theorem ea_r0Rel (s : State) (d : Byte) : s.ea params (.r0Rel d) = s.r0 + d := by simp [State.ea]

theorem ea_r1Rel (s : State) (d : Byte) : s.ea params (.r1Rel d) = s.r1 + d := by simp [State.ea]

/-- An offset read as a signed number gives the same address, because the sum wraps (R53). -/
theorem toNat_add_eq_add_toInt (x d : Byte) : ((x + d).toNat : Int) = (x.toNat + d.toInt) % 256 := by
  rw [BitVec.toNat_add, BitVec.toInt_eq_toNat_cond]
  split <;> omega

/-- Settles O19: the operand of the example is the cell at the address formed from the old r0. -/
theorem effectiveAddressAndOperandValue : Obligations.EffectiveAddressAndOperandValue := by
  intro s d l
  rw [ea_r0Rel, ea_r1Rel]
  refine ⟨rfl, BitVec.toNat_add .., BitVec.toNat_add .., rfl, rfl, toNat_add_eq_add_toInt .., toNat_add_eq_add_toInt ..,
    _, exec_add .r0 _ s, ?_⟩
  have haddress : BitVec.ofNat 8 (s.r0.toNat + d.toNat) = s.r0 + d := by
    rw [BitVec.ofNat_add, BitVec.ofNat_toNat, BitVec.ofNat_toNat, BitVec.setWidth_eq, BitVec.setWidth_eq]
  have hoperand : s.operand params (.cell (.r0Rel d)) = s.cell (s.r0 + d) := by rw [operand_cell, ea_r0Rel]
  rw [haddress, ← hoperand, ← BitVec.toNat_add]
  exact congrArg BitVec.toNat (settle_one_cell s (gAddr .r0) _)

/-- Settles O20: SHIFT_COUNT_BITS is 3. -/
theorem shiftCountIsThreeBits : Obligations.ShiftCountIsThreeBits := by
  intro s n r
  exact ⟨rfl, congrArg (regCount params) (peek_params ..)⟩

/-! ### One write -/

/-- A frame may list more cells. -/
theorem sameBut_mono {cells more : List Byte} {s t : State} (hsub : cells ⊆ more) (h : SameBut cells s t) :
    SameBut more s t := by
  obtain ⟨hcell, hcode, hfree⟩ := h
  exact ⟨fun a ha => hcell a fun hmem => ha (hsub hmem), hcode, hfree⟩

theorem sameBut_trans {cells : List Byte} {s t u : State} (h : SameBut cells s t) (h' : SameBut cells t u) :
    SameBut cells s u := by
  obtain ⟨hcell, hcode, hfree⟩ := h
  obtain ⟨hcell', hcode', hfree'⟩ := h'
  exact ⟨fun a ha => (hcell' a ha).trans (hcell a ha), hcode'.trans hcode, hfree'.trans hfree⟩

/-- The end of an instruction with one write: the cell, the frame, and pc, which advances unless it is the cell (R35,
R38). -/
theorem settle_write (s : State) (a v : Byte) :
    let t := s.settle params [(a, v)]
    t.cell a = v ∧ SameBut [a, regAddr .pc] s t ∧ (a ≠ regAddr .pc → t.pc = s.pc + 1) :=
  ⟨settle_one_cell s a v, sameBut_settle s _ _ (by simp) (by simp), fun h => settle_pc s _ (by simpa using h)⟩

/-- Opcode 8 is load1, whatever the other fields hold (R77). -/
theorem decode_opcode_eight {w : Word} (hlo : 0x8000 ≤ w.toNat) (hhi : w.toNat < 0x9000) :
    ∃ x src, decode params w = some (.load1 x src) := by
  have hop : w.toNat / 0x1000 = (8#4).toNat := by
    simp only [BitVec.toNat_ofNat]
    omega
  obtain ⟨b, cc, d, rfl⟩ := exists_eq_formatA hop
  obtain ⟨-, -, -, -, -, -, -, -, hload1, -⟩ := decodeWord_formatA b cc d
  exact ⟨SReg.ofBits b, Src.ofBits cc d, congrArg some hload1⟩

/-- Settles O22: the words are those of opcode 8, and load1 ends in one write, of pc only as its target. -/
theorem load1LoadsTheOperand : Obligations.Load1LoadsTheOperand := by
  refine ⟨fun _ => decode_opcode_eight, fun x src s => ⟨_, exec_load1 x src s, ?_⟩⟩
  obtain ⟨hcell, hframe, hpc⟩ := settle_write s (sAddr x) (s.operand params src)
  refine ⟨?_, fun hx => hpc (mt sAddr_eq_pc.1 hx), hframe⟩
  rw [← sAddr_eq, cell_regAddr] at hcell
  exact hcell

/-- Settles O23: one write, of the addressed cell. -/
theorem store0StoresTheRegister : Obligations.Store0StoresTheRegister :=
  fun b l s => ⟨_, exec_store0 b l s, settle_write s _ _⟩

/-- Settles O24: one write, of the addressed cell. -/
theorem store1StoresTheRegister : Obligations.Store1StoresTheRegister :=
  fun x l s => ⟨_, exec_store1 x l s, settle_write s _ _⟩

/-- After a store the operand that names the same cell is the value stored. -/
theorem load_after_write (s : State) (a v : Byte) (c : GReg) (y : SReg) (m : Loc) :
    let t := s.settle params [(a, v)]
    t.ea params m = a →
      (∃ u, exec (.load0 c (.cell m)) t = .next u ∧ u.cell (gAddr c) = v) ∧
      (∃ u, exec (.load1 y (.cell m)) t = .next u ∧ u.reg (sRegReg y) = v) := by
  intro t hm
  have hoperand : t.operand params (.cell m) = v := by rw [operand_cell, hm, settle_one_cell]
  rw [exec_load0, exec_load1, hoperand]
  refine ⟨⟨_, rfl, settle_one_cell ..⟩, _, rfl, ?_⟩
  rw [← cell_regAddr, sAddr_eq, settle_one_cell]

/-- Settles O18: each store ends in one write of the cell that the load then names. -/
theorem loadAfterStoreReturnsTheValue : Obligations.LoadAfterStoreReturnsTheValue := by
  intro s b c x y l m loads
  exact ⟨⟨_, exec_store0 b l s, load_after_write s _ _ c y m⟩, ⟨_, exec_store1 x l s, load_after_write s _ _ c y m⟩⟩

/-! ### Two writes -/

/-- A cell after two writes: the second wins (R37). -/
theorem cell_settle_two (s : State) (a v b u c : Byte) (h : c = a ∨ c = b) :
    (s.settle params [(a, v), (b, u)]).cell c = if c = b then u else v := by
  rw [settle_two]
  split <;> rcases h with rfl | rfl <;> simp [cell_setCell] 

/-- Settles O25: where the cell is the register itself, both clauses say that it keeps its value. -/
theorem swapExchangesRegisterAndCell : Obligations.SwapExchangesRegisterAndCell := by
  intro b l s
  refine ⟨_, exec_swap b l s, ?_, ?_, sameBut_settle s _ _ (by simp) (by simp), fun hpc => ?_⟩
  · rw [cell_settle_two _ _ _ _ _ _ (.inr rfl), if_pos rfl]
  · rw [cell_settle_two _ _ _ _ _ _ (.inl rfl)]
    split
    · exact congrArg s.cell ‹_›
    · rfl
  · exact settle_pc s _ (by simp [hpc, gAddr_ne_pc])

/-- Settles O26: it is the exchange with cell 0x06. -/
theorem swapWithPcJumpsAndLinks : Obligations.SwapWithPcJumpsAndLinks := by
  intro b s
  obtain ⟨t, hexec, hreg, hcell, hframe, -⟩ := swapExchangesRegisterAndCell b (.abs (regAddr .pc)) s
  simp only [State.ea, cell_regAddr, reg_pc] at hreg hcell hframe
  exact ⟨t, hexec, hcell, hreg, sameBut_mono (by simp) hframe⟩

end Sys2Proof.Proofs.DataMoves
end

section
/-! The flags cell bit by bit (R12, R29), cmp (R180), and the six comparison branches after a cmp (R192). -/

namespace Sys2Proof.Proofs.Compare

open Sys2Proof Sys2Proof.Config Sys2Proof.Machine Sys2Proof.Safety Sys2Proof.Proofs.Flags Sys2Proof.Proofs.Branch

/-! ### One flag of a flags byte -/

theorem flagPos_lt (l : FlagLayout) (f : Flag) : flagPos l f < 6 := by
  cases f <;> exact Fin.isLt _

theorem getLsbD_flagMask (l : FlagLayout) (f : Flag) (i : Nat) :
    (flagMask l f).getLsbD i = decide (flagPos l f = i) := by
  have hpos : flagPos l f < 8 := (flagPos_lt l f).trans (by decide)
  rw [flagMask, ← BitVec.twoPow_eq, BitVec.getLsbD_twoPow, decide_eq_true hpos, Bool.true_and]

/-- Writing a flag sets its bit and keeps the other seven (R12). -/
theorem getLsbD_withFlag (l : FlagLayout) (v : Byte) (f : Flag) (x : Bool) {i : Nat} (hi : i < 8) :
    (withFlag l v f x).getLsbD i = if flagPos l f = i then x else v.getLsbD i := by
  cases x with
  | true =>
    simp only [withFlag, if_true, BitVec.getLsbD_or, getLsbD_flagMask]
    by_cases h : flagPos l f = i <;> simp [h]
  | false =>
    simp only [withFlag, Bool.false_eq_true, if_false, BitVec.getLsbD_and, BitVec.getLsbD_not, getLsbD_flagMask]
    by_cases h : flagPos l f = i <;> simp [h, hi]

/-- The six flags in the order of FLAG_BIT's rows (R29). -/
def allFlags : List Flag := [.minus, .zero, .carry, .xtra1, .xtra2, .xtra3]

theorem mem_allFlags (f : Flag) : f ∈ allFlags := by cases f <;> decide

/-- With an injective layout each flag has a bit of its own (R29). -/
theorem flagPos_inj {l : FlagLayout} (h : l.injective = true) {f g : Flag} : flagPos l f = flagPos l g ↔ f = g := by
  have hrows : [l.minus, l.zero, l.carry, l.xtra1, l.xtra2, l.xtra3].Nodup := of_decide_eq_true h
  have hpositions := hrows.map Fin.val_injective
  have hnodup : (allFlags.map (flagPos l)).Nodup := hpositions
  exact ⟨List.inj_on_of_nodup_map hnodup (mem_allFlags f) (mem_allFlags g), congrArg (flagPos l)⟩

theorem flagOf_withFlag {l : FlagLayout} (h : l.injective = true) (v : Byte) (f g : Flag) (x : Bool) :
    flagOf l (withFlag l v f x) g = if g = f then x else flagOf l v g := by
  have hg : flagPos l g < 8 := (flagPos_lt l g).trans (by decide)
  rw [flagOf, getLsbD_withFlag l v f x hg, flagOf]
  simp only [flagPos_inj h, eq_comm]

/-- Settles O43: bit by bit, since FLAG_BIT gives bits 0 to 5 only. -/
theorem writingOneFlagKeepsTheOthers : Obligations.WritingOneFlagKeepsTheOthers := by
  intro l v f g x h
  refine ⟨flagOf_withFlag h v f g x, BitVec.eq_of_getLsbD_eq fun i hi => ?_⟩
  have hne : flagPos l f ≠ 6 + i := by have := flagPos_lt l f; omega
  rw [BitVec.getLsbD_extractLsb', BitVec.getLsbD_extractLsb', getLsbD_withFlag l v f x (by omega), if_neg hne]

/-! ### cmp -/

/-- Settles O42: with equal top bits both signed values are the unsigned ones less the same multiple of 256, and the
difference does not reach 128. -/
theorem cmpReadingsAgreeOnEqualTopBits : Obligations.CmpReadingsAgreeOnEqualTopBits := by
  intro a v h
  have hmsb (x : Byte) : x.getLsbD 7 = decide (128 ≤ x.toNat) := BitVec.msb_eq_decide x
  have htop : 128 ≤ a.toNat ↔ 128 ≤ v.toNat := by rw [hmsb, hmsb] at h; exact decide_eq_decide.1 h
  refine ⟨decide_eq_decide.2 ?_, (hmsb _).trans (decide_eq_decide.2 ?_)⟩
  · rw [BitVec.toInt_eq_toNat_cond, BitVec.toInt_eq_toNat_cond]
    split <;> split <;> omega
  · rw [BitVec.toNat_sub]
    omega

theorem flagOf_cmpFlags_zero (flags a v : Byte) :
    flagOf params.flagBit (cmpFlags params flags a v) .zero = decide (a = v) := by
  have hinj : params.flagBit.injective = true := by decide
  rw [cmpFlags, flagOf_withFlag hinj, flagOf_withFlag hinj]
  rfl

theorem flagOf_cmpFlags_minus (flags a v : Byte) :
    flagOf params.flagBit (cmpFlags params flags a v) .minus = decide (a.toNat < v.toNat) := by
  have hinj : params.flagBit.injective = true := by decide
  rw [cmpFlags, flagOf_withFlag hinj]
  rfl

/-- cmp writes bits 0 and 1 of the flags cell, minus and zero (R180, D6). -/
theorem getLsbD_cmpFlags (flags a v : Byte) {i : Nat} (hlo : 2 ≤ i) (hi : i < 8) :
    (cmpFlags params flags a v).getLsbD i = flags.getLsbD i := by
  have hminus : flagPos params.flagBit .minus ≠ i := by change 0 ≠ i; omega
  have hzero : flagPos params.flagBit .zero ≠ i := by change 1 ≠ i; omega
  rw [cmpFlags, getLsbD_withFlag _ _ _ _ hi, if_neg hminus, getLsbD_withFlag _ _ _ _ hi, if_neg hzero]

/-- Settles O41: cmp ends in one write, of cmpFlags to the flags cell. -/
theorem cmpSetsMinusAndZero : Obligations.CmpSetsMinusAndZero := by
  intro b src s
  obtain ⟨hflags, hpc, hframe⟩ := settle_flags s (cmpFlags params s.flags (s.cell (gAddr b)) (s.operand params src))
  refine ⟨_, exec_cmp b src s, ?_, ?_, fun i hi hlo => ?_, hpc, hframe⟩
  · rw [State.flag, hflags, flagOf_cmpFlags_zero, decide_eq_true_eq]
  · rw [State.flag, hflags, flagOf_cmpFlags_minus, decide_eq_true_eq]
  · rw [hflags, getLsbD_cmpFlags _ _ _ hlo hi]

/-- Settles O46: a branch looks at nothing but the two flags that cmp has set. -/
theorem compareThenBranchComparesUnsigned : Obligations.CompareThenBranchComparesUnsigned := by
  intro b src d s
  obtain ⟨t, hexec, hzero, hminus, -, hpc, -⟩ := cmpSetsMinusAndZero b src s
  refine ⟨t, hexec, ?_⟩
  intro a v ends
  have heq : t.flag params .zero = true ↔ a = v := by rw [hzero, BitVec.toNat_inj]
  have hbranch (inv : Bool) (c : Cond) {holds : Prop} (h : TestHolds t inv c ↔ holds) :
      ends (asmBranch inv c d) holds := by
    obtain ⟨u, hu, -, htaken, hnot⟩ := exec_asmBranch_next inv c d t
    refine ⟨u, hu, fun hh => htaken (h.2 hh), fun hh => ?_⟩
    rw [hnot (mt h.1 hh), hpc, BitVec.add_assoc]
    rfl
  have hlt : BaseHolds t .lt ↔ a < v := by
    rw [BaseHolds, hminus, heq]
    omega
  have hgt : BaseHolds t .gt ↔ v < a := by
    rw [BaseHolds, hminus, heq]
    omega
  have hbeq : BaseHolds t .eq ↔ a = v := heq
  exact ⟨hbranch false .lt hlt, hbranch false .gt hgt, hbranch false .eq hbeq,
    hbranch true .lt ((not_congr hlt).trans Nat.not_lt), hbranch true .gt ((not_congr hgt).trans Nat.not_lt),
    hbranch true .eq (not_congr hbeq)⟩

end Sys2Proof.Proofs.Compare
end

section
/-! The access primitives under any parameter record: an access to an implemented cell goes on, any other is a model
fault (R59), and the statements about other sizes and settings of the parameters that rest on these. -/

namespace Sys2Proof.Proofs.Settings

open Sys2Proof Sys2Proof.Config Sys2Proof.Machine Sys2Proof.Safety Sys2Proof.Proofs.Compare

/-! ### Implemented and unimplemented cells -/

section Access

variable {p : Params} {s : State}

theorem read_of_lt {a : Byte} {k : Byte → Result} (h : a.toNat < p.dataBytes) : s.read p a k = k (s.peek p a) :=
  if_pos h

theorem read_of_ge {a : Byte} {k : Byte → Result} (h : p.dataBytes ≤ a.toNat) :
    s.read p a k = .fault (.dataOutOfRange a) :=
  if_neg (Nat.not_lt.2 h)

theorem codeRead_of_ge {a : Byte} {k : Word → Result} (h : p.codeWords ≤ a.toNat) :
    s.codeRead p a k = .fault (.codeOutOfRange a) :=
  if_neg (Nat.not_lt.2 h)

/-- Only a read of pc depends on PC_READ_OFFSET (R34). -/
theorem peek_gAddr (b : GReg) : s.peek p (gAddr b) = s.cell (gAddr b) :=
  if_neg (gAddr_ne_pc b)

theorem withEa_of_lt {l : Loc} {k : Byte → Result} (h : ∀ a ∈ baseCells l, a.toNat < p.dataBytes) :
    s.withEa p l k = k (s.ea p l) := by
  cases l with
  | abs d => rfl
  | r0Rel d | r1Rel d => rw [State.withEa, read_of_lt (h _ List.mem_cons_self)]

theorem withSrc_cell_of_ge {l : Loc} {k : Byte → Result} (hbase : ∀ a ∈ baseCells l, a.toNat < p.dataBytes)
    (h : p.dataBytes ≤ (s.ea p l).toNat) : s.withSrc p (.cell l) k = .fault (.dataOutOfRange (s.ea p l)) := by
  rw [State.withSrc, withEa_of_lt hbase, read_of_ge h]

theorem commit_of_lt {ws : List Write} (h : ∀ w ∈ ws, w.1.toNat < p.dataBytes) :
    s.commit p ws = .next (s.settle p ws) := by
  have hfind : ws.find? (fun w => decide (p.dataBytes ≤ w.1.toNat)) = none := by
    simpa using h
  simp only [State.commit, hfind]

theorem commit_one_of_ge {a v : Byte} (h : p.dataBytes ≤ a.toNat) :
    s.commit p [(a, v)] = .fault (.dataOutOfRange a) := by
  simp [State.commit, h]

/-- The eight registers are implemented in every well-formed record (R22). -/
theorem regAddr_lt (h : 8 ≤ p.dataBytes) (r : Reg) : (regAddr r).toNat < p.dataBytes := by
  have hr : (regAddr r).toNat < 8 := by cases r <;> decide
  omega

theorem le_dataBytes_of_wellFormed (h : p.wellFormed = true) : 8 ≤ p.dataBytes := by
  simp only [Params.wellFormed, Bool.and_eq_true, decide_eq_true_eq] at h
  omega

theorem withSrc_of_lt {src : Src} {k : Byte → Result} (hregs : 8 ≤ p.dataBytes)
    (h : ∀ l, src = .cell l → (s.ea p l).toNat < p.dataBytes) : s.withSrc p src k = k (s.operand p src) := by
  cases src with
  | const d => rfl
  | cell l =>
    have hbase : ∀ a ∈ baseCells l, a.toNat < p.dataBytes := by
      cases l <;> simp [baseCells, regAddr_lt hregs]
    rw [State.withSrc, withEa_of_lt hbase, read_of_lt (h l rfl), State.operand]

end Access

/-- Settles O57: the accesses before the one that faults are to implemented cells. -/
theorem unimplementedCellsFault : Obligations.UnimplementedCellsFault := by
  intro p f s r b l k
  refine ⟨fun h hbase => ⟨withSrc_cell_of_ge hbase h, fun hr => ?_, fun hb => ⟨?_, ?_, ?_, ?_⟩⟩, fun hl hb h => ?_,
    fun h => codeRead_of_ge h⟩
  · rw [storeOp, withEa_of_lt hbase, read_of_lt hr, commit_one_of_ge h]
  · rw [swapOp, withEa_of_lt hbase, read_of_lt hb, read_of_ge h]
  · rw [mathOp, read_of_lt hb, withSrc_cell_of_ge hbase h]
  · rw [cmpOp, read_of_lt hb, withSrc_cell_of_ge hbase h]
  · rw [loopOp, read_of_lt hb, withSrc_cell_of_ge hbase h]
  · rw [loadroOp, State.withLoadroWord, hl]
    dsimp only
    rw [read_of_lt hb, peek_gAddr, codeRead_of_ge h]

/-! ### Free values -/

/-- Drawing a free value changes no cell. -/
theorem cell_freeIndex (s : State) (n : Nat) (a : Byte) : { s with freeIndex := n }.cell a = s.cell a := by
  simp only [State.cell]
  cases regAt a with
  | none => rfl
  | some r => cases r <;> rfl

theorem cell_draw (p : Params) (s : State) (a : Byte) : (s.draw p).cell a = s.cell a := by
  simp only [State.draw]
  split
  · rfl
  · exact cell_freeIndex ..

theorem draw_pc (p : Params) (s : State) : (s.draw p).pc = s.pc := by
  simp only [State.draw]
  split <;> rfl

theorem draw_code (p : Params) (s : State) : (s.draw p).code = s.code := by
  simp only [State.draw]
  split <;> rfl

/-- The two bytes of a word make the word (R54). -/
theorem extract_high_append_low (v : Word) : v.extractLsb' 8 8 ++ v.extractLsb' 0 8 = v :=
  BitVec.extractLsb'_append_extractLsb'

/-- A 16-bit result in r0:r1, pc and the frame (R54). -/
theorem settle_pair_append (s : State) (v : Word) :
    let t := s.settle params (pairWrites params v)
    t.r0 ++ t.r1 = v ∧ t.pc = s.pc + 1 ∧ SameBut [regAddr .r0, regAddr .r1, regAddr .pc] s t := by
  obtain ⟨hr0, hr1, hpc, hframe⟩ := settle_pair s v
  exact ⟨by rw [hr0, hr1, extract_high_append_low], hpc, hframe⟩

/-- loadro with the code address in a set register (U7, log 33). -/
theorem loadroOp_register (b : GReg) (r : Reg) (s : State) :
    loadroOp { params with loadroAddr := .register r } b s =
      .next (s.settle params (pairWrites params (s.codeCell (s.reg r)))) := by
  change s.read params (regAddr r)
    (fun a => s.codeRead params a fun w => s.commitArith params (pairWrites params w)) = _
  rw [read_params, peek_params, cell_regAddr, codeRead_params, commitArith_params]

/-- loadro of any value counts the free word it draws (U7, log 31). -/
theorem loadroOp_anyValue (b : GReg) (s : State) :
    loadroOp { params with loadroAddr := .anyValue } b s =
      .next ({ s with freeIndex := s.freeIndex + 1 }.settle params (pairWrites params (freeWord s.freeIndex))) :=
  commitArith_params { s with freeIndex := s.freeIndex + 1 } (pairWrites params (freeWord s.freeIndex))

/-- Settles O59: under both settings loadro ends in the two writes of the pair. -/
theorem otherLoadroAndReservedSettings : Obligations.OtherLoadroAndReservedSettings := by
  intro b r s w loads
  refine ⟨?_, ?_, rfl⟩
  · obtain ⟨hpair, hpc, hcell, hcode, -⟩ := settle_pair_append s (s.codeCell (s.reg r))
    exact ⟨_, loadroOp_register b r s, hpair, hpc, hcode, hcell⟩
  · obtain ⟨hpair, hpc, hcell, hcode, -⟩ :=
      settle_pair_append { s with freeIndex := s.freeIndex + 1 } (freeWord s.freeIndex)
    exact ⟨_, loadroOp_anyValue b s, hpair, hpc, hcode, fun a ha => (hcell a ha).trans (cell_freeIndex ..)⟩

/-! ### ARITH_FLAGS = havoc -/

/-- Taking other flags from a free byte leaves a bit of the flags cell that is none of theirs. -/
theorem getLsbD_foldl_flagFrom (l : FlagLayout) (x : Byte) (fs : List Flag) (v : Byte) {i : Nat} (hi : i < 8)
    (h : ∀ f ∈ fs, flagPos l f ≠ i) : (fs.foldl (flagFrom l x) v).getLsbD i = v.getLsbD i := by
  induction fs generalizing v with
  | nil => rfl
  | cons f fs ih =>
    rw [List.foldl_cons, ih _ fun g hg => h g (List.mem_cons_of_mem _ hg), flagFrom, getLsbD_withFlag _ _ _ _ hi,
      if_neg (h f List.mem_cons_self)]

/-- The end of an instruction that writes a general register and the flags cell, for any PC_STEP. -/
theorem settle_gAddr_flags (p : Params) (s : State) (b : GReg) (v f : Byte) :
    let t := s.settle p [(gAddr b, v), (regAddr .flags, f)]
    t.cell (gAddr b) = v ∧ t.flags = f ∧ t.pc = s.pc + p.pcStep := by
  intro t
  have ht : t = ((s.advance p).setCell (gAddr b) v).setCell (regAddr .flags) f := by
    simp only [t]
    rw [settle_two, if_neg (by simp [gAddr_ne_pc, regAddr_inj])]
  refine ⟨?_, ?_, ?_⟩
  · rw [ht, cell_setCell, if_neg (gAddr_ne_flags b), cell_setCell, if_pos rfl]
  · rw [ht, setCell_regAddr, setReg_flags_flags]
  · rw [ht, setCell_pc, if_neg (by decide), setCell_pc, if_neg (gAddr_ne_pc b), advance_pc]

/-- A math instruction under havoc: its own write, and one of the flags cell (R31). -/
theorem mathOp_havoc {p : Params} (f : Byte → Byte → Byte) (b : GReg) {src : Src} {s : State}
    (hhavoc : p.arithFlags = .havoc) (hregs : 8 ≤ p.dataBytes)
    (hsrc : ∀ l, src = .cell l → (s.ea p l).toNat < p.dataBytes) :
    mathOp p f b src s = .next ((s.draw p).settle p
      [(gAddr b, f (s.cell (gAddr b)) (s.operand p src)), (regAddr .flags, arithFlagsByte p s [] s.flags)]) := by
  have hb : (gAddr b).toNat < p.dataBytes := regAddr_lt hregs _
  rw [mathOp, read_of_lt hb, withSrc_of_lt hregs hsrc, peek_gAddr, State.commitArith, arithFlagWrites, hhavoc]
  exact commit_of_lt (by simp [hb, regAddr_lt hregs])

theorem getLsbD_arithFlagsByte_havoc {p : Params} (s : State) (v : Byte) (hhavoc : p.arithFlags = .havoc) {i : Nat}
    (hi : i < 8) (hminus : i ≠ flagPos p.flagBit .minus) (hzero : i ≠ flagPos p.flagBit .zero)
    (hcarry : i ≠ flagPos p.flagBit .carry) : (arithFlagsByte p s [] v).getLsbD i = v.getLsbD i := by
  rw [arithFlagsByte, hhavoc]
  refine getLsbD_foldl_flagFrom _ _ _ _ hi fun f hf => ?_
  have hmem : f = .minus ∨ f = .zero ∨ f = .carry := by simpa using hf
  rcases hmem with rfl | rfl | rfl
  · exact hminus.symm
  · exact hzero.symm
  · exact hcarry.symm

/-- Settles O30: beside its own write the instruction writes a flags byte that differs in three bits at most. -/
theorem havocChangesOnlyThreeFlags : Obligations.HavocChangesOnlyThreeFlags := by
  intro p f b src s hhavoc hp hsrc
  have hregs : 8 ≤ p.dataBytes := le_dataBytes_of_wellFormed hp
  obtain ⟨hcell, hflags, hpc⟩ := settle_gAddr_flags p (s.draw p) b (f (s.cell (gAddr b)) (s.operand p src))
    (arithFlagsByte p s [] s.flags)
  refine ⟨_, mathOp_havoc f b hhavoc hregs hsrc, hcell, ?_, ?_, fun a ha => ?_, fun i hi hminus hzero hcarry => ?_⟩
  · rw [hpc, draw_pc]
  · rw [settle_code, draw_code]
  · simp only [List.mem_cons, List.not_mem_nil, or_false, not_or] at ha
    obtain ⟨hb, hf, ha⟩ := ha
    rw [cell_settle_of_notMem p _ _ a (by simp [Ne.symm hb, Ne.symm hf]) ha, cell_draw]
  · rw [hflags, getLsbD_arithFlagsByte_havoc s _ hhavoc hi hminus hzero hcarry]

end Sys2Proof.Proofs.Settings
end

section
/-! The arithmetic instructions: the math family (R130 to R135), the unary family but the rotates through carry (R150 to
R165), and mul (R205). -/

namespace Sys2Proof.Proofs.Arithmetic

open Sys2Proof Sys2Proof.Config Sys2Proof.Machine Sys2Proof.Safety Sys2Proof.Proofs.Encoding
  Sys2Proof.Proofs.MovLoadStore Sys2Proof.Proofs.Steps Sys2Proof.Proofs.DataMoves Sys2Proof.Proofs.Settings

/-- An instruction whose only write is of a general register, seen with the flags cell left open. -/
theorem settle_register_flags_open (s : State) (b : GReg) (v : Byte) :
    let t := s.settle params [(gAddr b, v)]
    t.cell (gAddr b) = v ∧ t.pc = s.pc + params.pcStep ∧ SameBut [gAddr b, regAddr .flags, regAddr .pc] s t := by
  obtain ⟨hcell, hpc, hframe⟩ := settle_register s b v
  exact ⟨hcell, hpc, sameBut_mono (by simp) hframe⟩

/-! ### The math family -/

/-- A word is the format A word of the opcode in its top digit. -/
theorem exists_eq_formatA_of_range {w : Word} (op : BitVec 4)
    (h : 0x1000 * op.toNat ≤ w.toNat ∧ w.toNat < 0x1000 * op.toNat + 0x1000) : ∃ b cc d, w = formatA op b cc d :=
  exists_eq_formatA (by omega)

/-- Settles O28: one opcode for each of the five, and one write, of the result to the target. -/
theorem mathWritesTheTarget : Obligations.MathWritesTheTarget := by
  refine ⟨fun w => ⟨fun h => ?_, fun h => ?_, fun h => ?_, fun h => ?_, fun h => ?_⟩, ?_⟩
  · obtain ⟨b, cc, d, rfl⟩ := exists_eq_formatA_of_range 2 h
    obtain ⟨-, -, hadd, -⟩ := decodeWord_formatA b cc d
    exact ⟨_, _, congrArg some hadd⟩
  · obtain ⟨b, cc, d, rfl⟩ := exists_eq_formatA_of_range 3 h
    obtain ⟨-, -, -, hsub, -⟩ := decodeWord_formatA b cc d
    exact ⟨_, _, congrArg some hsub⟩
  · obtain ⟨b, cc, d, rfl⟩ := exists_eq_formatA_of_range 4 h
    obtain ⟨-, -, -, -, hand, -⟩ := decodeWord_formatA b cc d
    exact ⟨_, _, congrArg some hand⟩
  · obtain ⟨b, cc, d, rfl⟩ := exists_eq_formatA_of_range 5 h
    obtain ⟨-, -, -, -, -, hor, -⟩ := decodeWord_formatA b cc d
    exact ⟨_, _, congrArg some hor⟩
  · obtain ⟨b, cc, d, rfl⟩ := exists_eq_formatA_of_range 6 h
    obtain ⟨-, -, -, -, -, -, hxor, -⟩ := decodeWord_formatA b cc d
    exact ⟨_, _, congrArg some hxor⟩
  · intro b src s gives a v
    have hgives {i : Instr} {r : Byte} {n : Nat} (hexec : exec i s = .next (s.settle params [(gAddr b, r)]))
        (hr : r.toNat = n) : gives i n := by
      obtain ⟨hcell, hpc, hframe⟩ := settle_register_flags_open s b r
      exact ⟨_, hexec, by rw [hcell, hr], hpc, hframe⟩
    refine ⟨hgives (exec_add b src s) (BitVec.toNat_add ..), hgives (exec_sub b src s) ?_,
      hgives (exec_and b src s) (BitVec.toNat_and ..), hgives (exec_or b src s) (BitVec.toNat_or ..),
      hgives (exec_xor b src s) (BitVec.toNat_xor ..)⟩
    rw [BitVec.toNat_sub]
    omega

/-- No instruction of these opcodes lists the flags cell (D8). -/
theorem flags_notMem_writableCells {i : Instr} (h : arithWritesNoFlag i = true) (s : State) :
    regAddr .flags ∉ regAddr .pc :: writableCells i s := by
  cases i with
  | add b | sub b | and b | or b | xor b | loop b | shlN b | shrN b | rolN b | rorN b | shlCr b | shrCr b | rolCr b
  | rorCr b | adc b | sbm b | neg b => simp [writableCells, regAddr_inj, (gAddr_ne_flags b).symm]
  | loadro | mulConst | mulReg => simp [writableCells, regAddr_inj]
  | _ => cases h

theorem not_isReserved_of_arithWritesNoFlag {i : Instr} (h : arithWritesNoFlag i = true) : isReserved i = false := by
  cases i <;> first | rfl | cases h

/-- Settles O29: the frame of the instruction does not list the flags cell. -/
theorem arithmeticLeavesTheFlags : Obligations.ArithmeticLeavesTheFlags := by
  intro i s hi
  rcases exec_settles_or_reserved i s with ⟨-, ws, hexec, -⟩ | ⟨hreserved, -⟩
  · obtain ⟨hcell, -⟩ := onlyTheListedCellsChange i s _ hexec
    have hflags := hcell (regAddr .flags) (flags_notMem_writableCells hi s)
    rw [cell_regAddr, cell_regAddr] at hflags
    exact ⟨_, hexec, hflags⟩
  · rw [not_isReserved_of_arithWritesNoFlag hi] at hreserved
    cases hreserved

/-! ### Shifts and rotates -/

/-- The word of a `.n` shift or rotate. -/
theorem decode_count_word (b : GReg) (n : Count) (sub : BitVec 4) :
    decode params (BitVec.ofNat 16 (0xC000 + 0x10 * sub.toNat + 0x400 * b.bits.toNat + n.bits.toNat)) =
      some (decodeUnary b 0 sub n.bits) := by
  rw [← decode_unary_word, Nat.add_right_comm 0xC000]

/-- Settles O31: sub-op 0, and one write, of the shifted register. -/
theorem shlNShiftsLeft : Obligations.ShlNShiftsLeft := by
  intro b n s arg
  have harg : arg = n.bits.toNat := (toNat_count_bits n).symm
  rw [harg]
  obtain ⟨hshl, -⟩ := decodeUnary_count b 0 n
  obtain ⟨hcell, hpc, hframe⟩ := settle_register_flags_open s b (shl (s.cell (gAddr b)) (s.count params n))
  refine ⟨hshl ▸ decode_count_word b n 0, _, exec_shlN b n s, ?_, hpc, hframe⟩
  rw [hcell, shl, BitVec.toNat_shiftLeft, Nat.shiftLeft_eq]

/-- Settles O32: one write, of the shifted register. -/
theorem shrNShiftsRightWithZeros : Obligations.ShrNShiftsRightWithZeros := by
  intro b n s
  obtain ⟨hcell, hpc, hframe⟩ := settle_register s b (shr params.shrFill (s.cell (gAddr b)) (s.count params n))
  refine ⟨_, exec_shrN b n s, ?_, hpc, hframe⟩
  rw [hcell]
  exact (BitVec.toNat_ushiftRight ..).trans (Nat.shiftRight_eq_div_pow ..)

theorem rol_eq_rotateLeft (v : Byte) (n : Nat) : rol v n = v.rotateLeft n := rfl

theorem ror_eq_rotateRight (v : Byte) (n : Nat) : ror v n = v.rotateRight n := rfl

theorem getLsbD_rol (v : Byte) (n : Nat) {i : Nat} (hi : i < 8) : (rol v n).getLsbD ((i + n) % 8) = v.getLsbD i := by
  rw [rol_eq_rotateLeft, BitVec.getLsbD_rotateLeft]
  by_cases h : (i + n) % 8 < n % 8
  · rw [decide_eq_true h, cond_true]
    congr 1
    omega
  · rw [decide_eq_false h, cond_false, decide_eq_true (Nat.mod_lt _ (by decide)), Bool.true_and]
    congr 1
    omega

theorem getLsbD_ror (v : Byte) (n : Nat) {i : Nat} (hi : i < 8) : (ror v n).getLsbD i = v.getLsbD ((i + n) % 8) := by
  rw [ror_eq_rotateRight, BitVec.getLsbD_rotateRight]
  by_cases h : i < 8 - n % 8
  · rw [decide_eq_true h, cond_true]
    congr 1
    omega
  · rw [decide_eq_false h, cond_false, decide_eq_true hi, Bool.true_and]
    congr 1
    omega

/-- Settles O33: sub-ops 2 and 3, and one write each, of the rotated register. -/
theorem rotatesMoveEveryBit : Obligations.RotatesMoveEveryBit := by
  intro b n s arg frame
  have harg : arg = n.bits.toNat := (toNat_count_bits n).symm
  rw [harg]
  obtain ⟨-, -, hrol, hror⟩ := decodeUnary_count b 0 n
  obtain ⟨hrolCell, hrolFrame⟩ := settle_register_flags_open s b (rol (s.cell (gAddr b)) (s.count params n))
  obtain ⟨hrorCell, hrorFrame⟩ := settle_register_flags_open s b (ror (s.cell (gAddr b)) (s.count params n))
  refine ⟨hrol ▸ decode_count_word b n 2, hror ▸ decode_count_word b n 3,
    ⟨_, exec_rolN b n s, hrolFrame, fun i hi => ?_⟩, _, exec_rorN b n s, hrorFrame, fun i hi => ?_⟩
  · rw [hrolCell, getLsbD_rol _ _ hi]
  · rw [hrorCell, getLsbD_ror _ _ hi]

/-- The count of a `.cr` shift is that of the `.n` shift by the low three bits of cr (R150, D11). -/
theorem regCount_cr (s : State) : regCount params s.cr = s.count params (.imm (BitVec.ofNat 3 s.cr.toNat)) :=
  (BitVec.toNat_ofNat ..).symm

/-- Settles O34: both forms end in the same write, because they have the same count. -/
theorem crShiftsActAsConstantShifts : Obligations.CrShiftsActAsConstantShifts := by
  intro b s n
  have hcr (v : Byte) : (s.settle params [(gAddr b, v)]).cr = s.cr := by
    obtain ⟨-, -, hframe, -⟩ := settle_register s b v
    have h := hframe (regAddr .cr) (by cases b <;> decide)
    rwa [cell_regAddr, cell_regAddr] at h
  rw [exec_shlCr, exec_shrCr, exec_rolCr, exec_rorCr, exec_shlN, exec_shrN, exec_rolN, exec_rorN, regCount_cr]
  exact ⟨⟨_, rfl, rfl, hcr _⟩, ⟨_, rfl, rfl, hcr _⟩, ⟨_, rfl, rfl, hcr _⟩, ⟨_, rfl, rfl, hcr _⟩⟩

/-! ### The rest of the unary family, and mul -/

/-- A flag as the byte that adc and sbm take (R162, R163). -/
theorem toNat_flag_byte (x : Bool) : (if x = true then (1 : Byte) else 0).toNat = x.toNat := by
  cases x <;> rfl

/-- Settles O38: one write each, of the result modulo 256. -/
theorem adcSbmNegWrapAndKeepFlags : Obligations.AdcSbmNegWrapAndKeepFlags := by
  intro b s gives v
  have hgives {i : Instr} {r : Byte} {n : Nat} (hexec : exec i s = .next (s.settle params [(gAddr b, r)]))
      (hr : r.toNat = n) : gives i n := by
    obtain ⟨hcell, hpc, hframe⟩ := settle_register s b r
    exact ⟨_, hexec, by rw [hcell, hr], hpc, hframe⟩
  refine ⟨hgives (exec_adc b s) ?_, hgives (exec_sbm b s) ?_, hgives (exec_neg b s) ?_⟩
  · rw [BitVec.toNat_add, toNat_flag_byte]
  · have hflag := Bool.toNat_le (s.flag params .minus)
    rw [BitVec.toNat_sub, toNat_flag_byte]
    omega
  · rw [BitVec.toNat_sub]
    exact congrArg (· % 256) (Nat.add_zero _)

/-- Settles O39: the pair takes the two bytes of the code cell. -/
theorem loadroReadsACodeCell : Obligations.LoadroReadsACodeCell := by
  intro b s
  obtain ⟨hr0, hr1, hpc, hframe⟩ := settle_pair s (s.codeCell (s.cell (gAddr b)))
  refine ⟨_, exec_loadro b s, ?_, ?_, hpc, hframe⟩
  · rw [hr0, BitVec.extractLsb'_toNat, Nat.shiftRight_eq_div_pow]
    omega
  · rw [hr1, BitVec.extractLsb'_toNat]
    rfl

/-- The product of two bytes fits in 16 bits, unsigned and signed (R205). -/
theorem toNat_product (a m : Byte) : (product false a m).toNat = a.toNat * m.toNat := by
  have hlt : a.toNat * m.toNat < 2 ^ 8 * 2 ^ 8 := Nat.mul_lt_mul'' a.isLt m.isLt
  exact (BitVec.toNat_ofNat ..).trans (Nat.mod_eq_of_lt hlt)

theorem toInt_product (a m : Byte) : (product true a m).toInt = a.toInt * m.toInt := by
  have habs (x : Byte) : |x.toInt| ≤ 128 := abs_le.2 ⟨x.le_toInt, x.toInt_lt.le.trans (by decide)⟩
  have hprod : |a.toInt * m.toInt| ≤ 128 * 128 := by
    rw [abs_mul]
    exact mul_le_mul (habs a) (habs m) (abs_nonneg _) (by decide)
  obtain ⟨hlo, hhi⟩ := abs_le.1 hprod
  exact BitVec.toInt_ofInt_eq_self (by decide) ((by decide : (-(2 ^ 15) : Int) ≤ -(128 * 128)).trans hlo)
    (hhi.trans_lt (by decide))

/-- Settles O40: the pair takes the product, which fits in it. -/
theorem mulGivesTheExactProduct : Obligations.MulGivesTheExactProduct := by
  intro ms e r s pair rest a
  have hends {i : Instr} {v : Word}
      (hexec : exec i s = .next (s.settle params (pairWrites params v))) :
      ∃ t, exec i s = .next t ∧ pair t = v ∧ rest t := by
    obtain ⟨hpair, hrest⟩ := settle_pair_append s v
    exact ⟨_, hexec, hpair, hrest⟩
  refine ⟨?_, ?_, ?_, ?_⟩
  · obtain ⟨t, ht, hpair, hrest⟩ := hends (exec_mulConst false ms e s)
    exact ⟨t, ht, by rw [hpair, toNat_product], hrest⟩
  · obtain ⟨t, ht, hpair, hrest⟩ := hends (exec_mulConst true ms e s)
    exact ⟨t, ht, by rw [hpair, toInt_product], hrest⟩
  · obtain ⟨t, ht, hpair, hrest⟩ := hends (exec_mulReg false ms r s)
    exact ⟨t, ht, by rw [hpair, toNat_product], hrest⟩
  · obtain ⟨t, ht, hpair, hrest⟩ := hends (exec_mulReg true ms r s)
    exact ⟨t, ht, by rw [hpair, toInt_product], hrest⟩

end Sys2Proof.Proofs.Arithmetic
end

section
/-! The rotates through carry (R155, R156): carry and a register are a ring of nine bits, which rolc and rorc turn by
one; everything about the two follows from that turn and from what stays beside the ring. -/

namespace Sys2Proof.Proofs.CarryRing

open Sys2Proof Sys2Proof.Config Sys2Proof.Machine Sys2Proof.Safety Sys2Proof.Proofs.DataMoves
  Sys2Proof.Proofs.Compare

/-- Carry and a register as nine bits, carry on top (R155, D12). -/
def ring (b : GReg) (s : State) : BitVec 9 := BitVec.ofBool (s.flag params .carry) ++ s.cell (gAddr b)

/-- What a rotate through carry leaves beside the ring: the other seven bits of the flags cell, and every cell but the
register, the flags cell and pc. -/
def KeepsBeside (b : GReg) (s t : State) : Prop :=
  (∀ i < 8, i ≠ 2 → t.flags.getLsbD i = s.flags.getLsbD i) ∧ SameBut [gAddr b, regAddr .flags, regAddr .pc] s t

theorem keepsBeside_refl (b : GReg) (s : State) : KeepsBeside b s s :=
  ⟨fun _ _ _ => rfl, fun _ _ => rfl, rfl, rfl⟩

theorem KeepsBeside.trans {b : GReg} {s t u : State} (h : KeepsBeside b s t) (h' : KeepsBeside b t u) :
    KeepsBeside b s u := by
  obtain ⟨hbits, hframe⟩ := h
  obtain ⟨hbits', hframe'⟩ := h'
  exact ⟨fun i hi hne => (hbits' i hi hne).trans (hbits i hi hne), sameBut_trans hframe hframe'⟩

/-- With the ring as it was nothing but pc has changed. -/
theorem sameBut_of_ring_eq {b : GReg} {s t : State} (hring : ring b t = ring b s) (h : KeepsBeside b s t) :
    SameBut [regAddr .pc] s t := by
  obtain ⟨hbits, hcell, hcode, hfree⟩ := h
  have hreg : t.cell (gAddr b) = s.cell (gAddr b) := by
    have := congrArg (BitVec.extractLsb' 0 8) hring
    rwa [ring, ring, BitVec.extractLsb'_append_eq_right, BitVec.extractLsb'_append_eq_right] at this
  have hcarry : t.flags.getLsbD 2 = s.flags.getLsbD 2 := by
    have := congrArg (BitVec.extractLsb' 8 1) hring
    rw [ring, ring, BitVec.extractLsb'_append_eq_left, BitVec.extractLsb'_append_eq_left] at this
    exact BitVec.ofBool_eq_iff_eq.1 this
  have hflags : t.flags = s.flags := BitVec.eq_of_getLsbD_eq fun i hi => by
    by_cases h2 : i = 2
    · rw [h2, hcarry]
    · exact hbits i hi h2
  refine ⟨fun a ha => ?_, hcode, hfree⟩
  by_cases hb : a = gAddr b
  · rw [hb, hreg]
  by_cases hf : a = regAddr .flags
  · rw [hf, cell_regAddr, cell_regAddr, reg_flags, reg_flags, hflags]
  · exact hcell a (by simpa [hb, hf] using ha)

/-! ### One turn -/

theorem getLsbD_rotateLeft_one (x : BitVec 9) {i : Nat} (hi : i < 9) :
    (x.rotateLeft 1).getLsbD i = x.getLsbD ((i + 8) % 9) := by
  rw [BitVec.getLsbD_rotateLeft]
  by_cases h : i < 1
  · rw [decide_eq_true h, cond_true]
    congr 1
    omega
  · rw [decide_eq_false h, cond_false, decide_eq_true hi, Bool.true_and]
    congr 1
    omega

theorem getLsbD_rotateRight_one (x : BitVec 9) {i : Nat} (hi : i < 9) :
    (x.rotateRight 1).getLsbD i = x.getLsbD ((i + 1) % 9) := by
  rw [BitVec.getLsbD_rotateRight]
  by_cases h : i < 8
  · rw [decide_eq_true h, cond_true]
    congr 1
    omega
  · rw [decide_eq_false h, cond_false, decide_eq_true hi, Bool.true_and]
    congr 1
    omega

theorem getLsbD_ofBool_append (c : Bool) (v : Byte) (i : Nat) :
    (BitVec.ofBool c ++ v : BitVec 9).getLsbD i = if i < 8 then v.getLsbD i else (decide (i = 8) && c) := by
  refine BitVec.getLsbD_append.trans ?_
  by_cases h : i < 8
  · rw [if_pos h, if_pos h]
  · rw [if_neg h, if_neg h, BitVec.getLsbD_ofBool]
    congr 1
    exact decide_eq_decide.2 (by omega)

theorem ofBool_append_rolcByte (v : Byte) (c : Bool) :
    BitVec.ofBool (v.getLsbD 7) ++ rolcByte v c = (BitVec.ofBool c ++ v).rotateLeft 1 := by
  refine BitVec.eq_of_getLsbD_eq fun i hi => ?_
  rw [getLsbD_rotateLeft_one _ hi, getLsbD_ofBool_append, getLsbD_ofBool_append]
  interval_cases i <;> simp [rolcByte]

theorem ofBool_append_rorcByte (v : Byte) (c : Bool) :
    BitVec.ofBool (v.getLsbD 0) ++ rorcByte v c = (BitVec.ofBool c ++ v).rotateRight 1 := by
  refine BitVec.eq_of_getLsbD_eq fun i hi => ?_
  rw [getLsbD_rotateRight_one _ hi, getLsbD_ofBool_append, getLsbD_ofBool_append]
  interval_cases i <;> simp [rorcByte]

/-- The end of a rotate through carry: the ring has the new register and carry, and all beside it stays. -/
theorem settle_ring (b : GReg) (s : State) (v : Byte) (c : Bool) :
    let t := s.settle params [(gAddr b, v), (regAddr .flags, withFlag params.flagBit s.flags .carry c)]
    ring b t = BitVec.ofBool c ++ v ∧ KeepsBeside b s t ∧ t.pc = s.pc + 1 := by
  intro t
  obtain ⟨hcell, hflags, hpc⟩ := settle_register_flags s b v (withFlag params.flagBit s.flags .carry c)
  refine ⟨?_, ⟨fun i hi hne => ?_, sameBut_settle s _ _ (by simp) (by simp)⟩, hpc⟩
  · rw [ring, hcell, State.flag, hflags, flagOf_withFlag (by decide), if_pos rfl]
  · rw [hflags, getLsbD_withFlag _ _ _ _ hi, if_neg]
    exact fun h => hne h.symm

theorem exec_rolc_turns (b : GReg) (s : State) :
    ∃ t, exec (.rolc b) s = .next t ∧ ring b t = (ring b s).rotateLeft 1 ∧ KeepsBeside b s t ∧ t.pc = s.pc + 1 := by
  obtain ⟨hring, hrest⟩ := settle_ring b s (rolcByte (s.cell (gAddr b)) (s.flag params .carry))
    ((s.cell (gAddr b)).getLsbD 7)
  exact ⟨_, exec_rolc b s, hring.trans (ofBool_append_rolcByte ..), hrest⟩

theorem exec_rorc_turns (b : GReg) (s : State) :
    ∃ t, exec (.rorc b) s = .next t ∧ ring b t = (ring b s).rotateRight 1 ∧ KeepsBeside b s t ∧ t.pc = s.pc + 1 := by
  obtain ⟨hring, hrest⟩ := settle_ring b s (rorcByte (s.cell (gAddr b)) (s.flag params .carry))
    ((s.cell (gAddr b)).getLsbD 0)
  exact ⟨_, exec_rorc b s, hring.trans (ofBool_append_rorcByte ..), hrest⟩

/-- Settles O35: each is one turn of the ring. -/
theorem rotateThroughCarryIsANineBitRing : Obligations.RotateThroughCarryIsANineBitRing := by
  intro b s ring' others
  obtain ⟨t, ht, htring, ⟨htbits, htframe⟩, htpc⟩ := exec_rolc_turns b s
  obtain ⟨u, hu, huring, ⟨hubits, huframe⟩, hupc⟩ := exec_rorc_turns b s
  exact ⟨⟨t, ht, htring, htbits, htpc, htframe⟩, u, hu, huring, hubits, hupc, huframe⟩

/-! ### Several turns -/

theorem rotateRight_rotateLeft (x : BitVec 9) : (x.rotateLeft 1).rotateRight 1 = x :=
  BitVec.eq_of_getLsbD_eq fun i hi => by
    rw [getLsbD_rotateRight_one _ hi, getLsbD_rotateLeft_one _ (Nat.mod_lt _ (by decide))]
    congr 1
    omega

theorem rotateLeft_rotateRight (x : BitVec 9) : (x.rotateRight 1).rotateLeft 1 = x :=
  BitVec.eq_of_getLsbD_eq fun i hi => by
    rw [getLsbD_rotateLeft_one _ hi, getLsbD_rotateRight_one _ (Nat.mod_lt _ (by decide))]
    congr 1
    omega

/-- Settles O36: a turn to one side and then to the other leaves the ring. -/
theorem rorcUndoesRolc : Obligations.RorcUndoesRolc := by
  intro b s
  constructor
  · obtain ⟨t, ht, htring, htkeeps, -⟩ := exec_rolc_turns b s
    obtain ⟨u, hu, huring, hukeeps, -⟩ := exec_rorc_turns b t
    exact ⟨t, u, ht, hu, sameBut_of_ring_eq (by rw [huring, htring, rotateRight_rotateLeft]) (htkeeps.trans hukeeps)⟩
  · obtain ⟨t, ht, htring, htkeeps, -⟩ := exec_rorc_turns b s
    obtain ⟨u, hu, huring, hukeeps, -⟩ := exec_rolc_turns b t
    exact ⟨t, u, ht, hu, sameBut_of_ring_eq (by rw [huring, htring, rotateLeft_rotateRight]) (htkeeps.trans hukeeps)⟩

/-- A map that moves each of nine bits by `k` places moves it by `n * k` places when it is applied `n` times. -/
theorem getLsbD_iterate {f : BitVec 9 → BitVec 9} {k : Nat}
    (hf : ∀ x, ∀ i < 9, (f x).getLsbD i = x.getLsbD ((i + k) % 9)) (n : Nat) (x : BitVec 9) {i : Nat} (hi : i < 9) :
    (f^[n] x).getLsbD i = x.getLsbD ((i + n * k) % 9) := by
  induction n generalizing x with
  | zero => simp [Nat.mod_eq_of_lt hi]
  | succ n ih =>
    rw [Function.iterate_succ_apply, ih, hf _ _ (Nat.mod_lt _ (by decide)), Nat.mod_add_mod, Nat.add_assoc,
      ← Nat.succ_mul]

theorem iterate_nine {f : BitVec 9 → BitVec 9} {k : Nat}
    (hf : ∀ x, ∀ i < 9, (f x).getLsbD i = x.getLsbD ((i + k) % 9)) (x : BitVec 9) : f^[9] x = x :=
  BitVec.eq_of_getLsbD_eq fun i hi => by
    rw [getLsbD_iterate hf 9 x hi, Nat.add_mul_mod_self_left, Nat.mod_eq_of_lt hi]

/-- Executing an instruction that turns the ring by `f`, `n` times. -/
theorem execTimes_turns {i : Instr} {b : GReg} {f : BitVec 9 → BitVec 9}
    (h : ∀ s, ∃ t, exec i s = .next t ∧ ring b t = f (ring b s) ∧ KeepsBeside b s t ∧ t.pc = s.pc + 1) (n : Nat)
    (s : State) : ∃ t, execTimes i n s = .next t ∧ ring b t = f^[n] (ring b s) ∧ KeepsBeside b s t := by
  induction n generalizing s with
  | zero => exact ⟨s, rfl, rfl, keepsBeside_refl b s⟩
  | succ n ih =>
    obtain ⟨t, ht, htring, htkeeps, -⟩ := h s
    obtain ⟨u, hu, huring, hukeeps⟩ := ih t
    refine ⟨u, ?_, ?_, htkeeps.trans hukeeps⟩
    · rw [execTimes, ht, ← hu]
    · rw [huring, htring, Function.iterate_succ_apply]

/-- Settles O37: nine turns of a ring of nine bits leave it. -/
theorem nineRotatesThroughCarryRestore : Obligations.NineRotatesThroughCarryRestore := by
  intro b s
  obtain ⟨t, ht, htring, htkeeps⟩ := execTimes_turns (f := fun x => x.rotateLeft 1) (exec_rolc_turns b) 9 s
  obtain ⟨u, hu, huring, hukeeps⟩ := execTimes_turns (f := fun x => x.rotateRight 1) (exec_rorc_turns b) 9 s
  rw [iterate_nine fun x i => getLsbD_rotateLeft_one x] at htring
  rw [iterate_nine fun x i => getLsbD_rotateRight_one x] at huring
  exact ⟨⟨t, ht, sameBut_of_ring_eq htring htkeeps⟩, u, hu, sameBut_of_ring_eq huring hukeeps⟩

end Sys2Proof.Proofs.CarryRing
end

section
/-! loop (R200): one execution under each setting of LOOP_TEST, and a loop that jumps to itself. -/

namespace Sys2Proof.Proofs.Loop

open Sys2Proof Sys2Proof.Config Sys2Proof.Machine Sys2Proof.Safety Sys2Proof.Proofs.MovLoadStore
  Sys2Proof.Proofs.DataMoves

/-! ### One execution -/

/-- The end of an instruction that writes a general register and then jumps or does not. -/
theorem settle_register_jump (s : State) (b : GReg) (v d : Byte) (jumps : Bool) :
    let t := s.settle params ((gAddr b, v) :: if jumps then [(regAddr .pc, d)] else [])
    t.cell (gAddr b) = v ∧ (t.pc = if jumps then d else s.pc + 1) ∧ SameBut [gAddr b, regAddr .pc] s t := by
  cases jumps with
  | false => exact settle_register s b v
  | true =>
    refine ⟨?_, ?_, sameBut_settle s _ _ (by simp) (by simp)⟩
    · exact (cell_settle_two s _ _ _ _ _ (.inl rfl)).trans (if_neg (gAddr_ne_pc b))
    · have hpc := cell_settle_two s (gAddr b) v (regAddr .pc) d (regAddr .pc) (.inr rfl)
      rwa [cell_regAddr, reg_pc, if_pos rfl] at hpc

/-- loop with another LOOP_TEST: only the decision to jump is another. -/
theorem loopOp_setting (l : LoopTest) (b : GReg) (src : Src) (s : State) :
    loopOp { params with loopTest := l } b src s =
      .next (s.settle params ((gAddr b, s.cell (gAddr b) - 1) ::
        if loopJumps l (s.cell (gAddr b)) then [(regAddr .pc, s.operand params src)] else [])) := by
  change s.read params (gAddr b) (fun a => s.withSrc params src fun d =>
    s.commitArith params ((gAddr b, a - 1) :: if loopJumps l a then [(regAddr .pc, d)] else [])) = _
  rw [read_params, withSrc_params, commitArith_params, peek_params]

/-- Settles O47: the two writes of loop, of its register and, where it jumps, of pc. -/
theorem loopDecrementsAndJumpsIfNotZero : Obligations.LoopDecrementsAndJumpsIfNotZero := by
  intro b src s
  obtain ⟨hcell, hpc, hframe⟩ := settle_register_jump s b (s.cell (gAddr b) - 1) (s.operand params src)
    (loopJumps params.loopTest (s.cell (gAddr b)))
  have hjumps : loopJumps params.loopTest (s.cell (gAddr b)) = true ↔ s.cell (gAddr b) - 1 ≠ 0 := decide_eq_true_iff
  refine ⟨_, exec_loop b src s, ?_, fun h => ?_, fun h => ?_, hframe⟩
  · rw [hcell, BitVec.toNat_sub, Nat.add_comm]
    rfl
  · rw [hpc, if_pos (hjumps.2 (hcell ▸ h))]
  · rw [hpc, if_neg (mt hjumps.1 (not_not.2 (hcell ▸ h)))]

/-- Settles O48: the rows are loopJumps of the four values. -/
theorem loopTestOutcomeTable : Obligations.LoopTestOutcomeTable := by
  intro b src s ends row
  have hends (l : LoopTest) : ends l (s.cell (gAddr b) - 1) (loopJumps l (s.cell (gAddr b))) := by
    obtain ⟨hcell, hpc, -⟩ := settle_register_jump s b (s.cell (gAddr b) - 1) (s.operand params src)
      (loopJumps l (s.cell (gAddr b)))
    exact ⟨_, loopOp_setting l b src s, hcell, hpc⟩
  have hrow (v : Byte) : row v (v - 1) (loopJumps .postNonzero v) (loopJumps .preNonzero v) (loopJumps .preZero v) := by
    intro hv
    exact ⟨hv ▸ hends .postNonzero, hv ▸ hends .preNonzero, hv ▸ hends .preZero⟩
  exact ⟨hrow 0x00, hrow 0x01, hrow 0x02, hrow 0xFF⟩

/-! ### A loop that jumps to itself -/

/-- One more execution at the end. -/
theorem execTimes_succ_last {i : Instr} {n : Nat} {s t : State} (h : execTimes i n s = .next t) :
    execTimes i (n + 1) s = exec i t := by
  induction n generalizing s with
  | zero =>
    obtain rfl : s = t := by simpa [execTimes] using h
    cases hexec : exec i s <;> simp [execTimes, hexec]
  | succ n ih =>
    cases hexec : exec i s with
    | next u =>
      simp only [execTimes, hexec] at h
      exact (by simp only [execTimes, hexec] : execTimes i (n + 2) s = execTimes i (n + 1) u).trans (ih h)
    | fault | refused => simp [execTimes, hexec] at h

/-- Back at its own address a loop has changed nothing but its register. -/
theorem sameBut_of_pc_eq {b : GReg} {s t : State} (h : SameBut [gAddr b, regAddr .pc] s t) (hpc : t.pc = s.pc) :
    SameBut [gAddr b] s t := by
  obtain ⟨hcell, hcode, hfree⟩ := h
  refine ⟨fun a ha => ?_, hcode, hfree⟩
  by_cases ha' : a = regAddr .pc
  · rw [ha', cell_regAddr, cell_regAddr, reg_pc, reg_pc, hpc]
  · exact hcell a (by simpa [ha'] using ha)

/-- After `k` of `n` executions, `n` the count the register stands for, it holds what is left, and pc is back at the
loop unless nothing is left. -/
theorem execTimes_loop {b : GReg} {s : State} {n : Nat} (hn : (s.cell (gAddr b)).toNat = n % 256) (hn' : n ≤ 256)
    {k : Nat} (hk : k ≤ n) :
    ∃ t, execTimes (.loop b (.const s.pc)) k s = .next t ∧ (t.cell (gAddr b)).toNat = (n - k) % 256 ∧
      (k < n → t.pc = s.pc) ∧ (k = n → 0 < n → t.pc = s.pc + 1) ∧ SameBut [gAddr b, regAddr .pc] s t := by
  induction k with
  | zero => exact ⟨s, rfl, hn, fun _ => rfl, fun h h' => absurd h.symm h'.ne', fun _ _ => rfl, rfl, rfl⟩
  | succ k ih =>
    obtain ⟨t, ht, hcell, hpc, -, hframe⟩ := ih (by omega)
    obtain ⟨u, hu, hucell, hujump, hufall, huframe⟩ := loopDecrementsAndJumpsIfNotZero b (.const s.pc) t
    have hpc := hpc (by omega)
    have hleft : (u.cell (gAddr b)).toNat = (n - (k + 1)) % 256 := by
      rw [hucell, hcell]
      omega
    have hzero : u.cell (gAddr b) = 0 ↔ (n - (k + 1)) % 256 = 0 := by
      rw [← hleft]
      exact BitVec.toNat_inj.symm
    refine ⟨u, (execTimes_succ_last ht).trans hu, hleft, fun hlt => hujump fun h => ?_, fun heq _ => ?_,
      sameBut_trans hframe huframe⟩
    · have := hzero.1 h
      omega
    · rw [hufall (hzero.2 (by omega)), hpc]

/-- Settles O49: by induction on the executions, counting the register modulo 256. -/
theorem loopCountsItsRegisterDown : Obligations.LoopCountsItsRegisterDown := by
  intro b s n
  have hlt := (s.cell (gAddr b)).isLt
  have hn : (s.cell (gAddr b)).toNat = n % 256 ∧ 0 < n ∧ n ≤ 256 := by
    by_cases h : s.cell (gAddr b) = 0
    · simp [n, h]
    · have hne : (s.cell (gAddr b)).toNat ≠ 0 := fun h' => h (BitVec.eq_of_toNat_eq h')
      simp only [n, if_neg h]
      omega
  obtain ⟨hmod, hpos, hle⟩ := hn
  refine ⟨fun k hk => ?_, ?_⟩
  · obtain ⟨t, ht, hcell, hpc, -, hframe⟩ := execTimes_loop hmod hle hk.le
    exact ⟨t, ht, hpc hk, hcell, sameBut_of_pc_eq hframe (hpc hk)⟩
  · obtain ⟨t, ht, hcell, -, hpc, hframe⟩ := execTimes_loop hmod hle le_rfl
    refine ⟨t, ht, hpc rfl hpos, BitVec.eq_of_toNat_eq ?_, hframe⟩
    rw [hcell, Nat.sub_self]
    rfl

end Sys2Proof.Proofs.Loop
end

section
/-! The end of a run (R255): a halted state is a fixed point of the step, a run has at most one first halted state, and
runEnd finds it. -/

namespace Sys2Proof.Proofs.Run

open Sys2Proof Sys2Proof.Config Sys2Proof.Machine Sys2Proof.Safety Sys2Proof.Proofs.Encoding Sys2Proof.Proofs.Steps

/-! ### Halted states -/

/-- The cells, the lists above the registers and the free values are the whole state. -/
theorem state_ext {s t : State} (hcell : ∀ a : Byte, t.cell a = s.cell a) (hram : t.ram = s.ram)
    (hcode : t.code = s.code) (hfree : t.freeIndex = s.freeIndex) : t = s := by
  have hreg (r : Reg) : t.reg r = s.reg r := by
    have h := hcell (regAddr r)
    rwa [cell_regAddr, cell_regAddr] at h
  cases s
  cases t
  rw [State.mk.injEq]
  exact ⟨hreg .r0, hreg .r1, hreg .r2, hreg .r3, hreg .cr, hreg .flags, hreg .pc, hreg .lr, hram,
    hcode, hfree⟩

theorem setCell_ram {s : State} {a v : Byte} (h : a.toNat < 8) : (s.setCell a v).ram = s.ram := by
  cases hreg : regAt a with
  | none => exact absurd (regAt_eq_none.1 hreg) (Nat.not_le.2 h)
  | some r => rw [regAt_eq_some.1 hreg, setCell_regAddr, setReg_ram]

/-- Writes of registers leave the data cells above them as they are listed. -/
theorem applyWrites_ram {s : State} {ws : List Write} (h : ∀ w ∈ ws, w.1.toNat < 8) :
    (s.applyWrites ws).ram = s.ram := by
  induction ws generalizing s with
  | nil => rfl
  | cons w ws ih =>
    exact (ih fun u hu => h u (List.mem_cons_of_mem _ hu)).trans (setCell_ram (h w List.mem_cons_self))

theorem settle_ram {s : State} {ws : List Write} (h : ∀ w ∈ ws, w.1.toNat < 8) : (s.settle params ws).ram = s.ram := by
  simp only [State.settle]
  split
  · exact applyWrites_ram h
  · exact applyWrites_ram h

theorem regAddr_lt_eight (r : Reg) : (regAddr r).toNat < 8 := by cases r <;> decide

theorem gAddr_lt_eight (b : GReg) : (gAddr b).toNat < 8 := regAddr_lt_eight _

theorem sAddr_lt_eight (x : SReg) : (sAddr x).toNat < 8 := regAddr_lt_eight _

/-- A control transfer writes registers only (R35). -/
theorem writableCells_lt_of_writesPc {i : Instr} {s : State} (h : WritesPc i s) :
    ∀ a ∈ writableCells i s, a.toNat < 8 := by
  cases i with
  | load1 x => simp [writableCells, sAddr_lt_eight]
  | store0 b l | store1 b l =>
    have hea : s.ea params l = regAddr .pc := h
    simp [writableCells, hea, regAddr_lt_eight]
  | swap b l =>
    have hea : s.ea params l = regAddr .pc := h
    simp [writableCells, hea, regAddr_lt_eight, gAddr_lt_eight]
  | loop b => simp [writableCells, gAddr_lt_eight]
  | blt | bgt | beq | bca | bmi | bxt1 | bxt2 | bxt3 | bgte | blte | bne | bnc | bnm | bnx1 | bnx2 | bnx3 =>
    simp [writableCells]
  | _ => cases h

/-- A step that leaves pc where it was is a control transfer, and so leaves the listed data cells. -/
theorem step_ram_of_pc_eq {s t : State} (h : step s = .next t) (hpc : t.pc = s.pc) : t.ram = s.ram := by
  obtain ⟨ws, rfl, hws, hnot⟩ := step_next h
  by_cases htransfer : WritesPc (decodeWord (s.codeCell s.pc)) s
  · refine settle_ram fun w hw => ?_
    rcases List.mem_cons.1 (hws w hw) with hw' | hw'
    · rw [hw']
      exact regAddr_lt_eight _
    · exact writableCells_lt_of_writesPc htransfer _ hw'
  · rw [settle_pc s ws (hnot htransfer)] at hpc
    exact absurd hpc (by bv_omega)

/-- Settles O54: a halted state's step is a control transfer to itself, so that it lists no new data cell. -/
theorem haltedExactlyWhenTheStepFixesTheState : Obligations.HaltedExactlyWhenTheStepFixesTheState := by
  intro s
  refine ⟨fun ⟨t, ht, hcell⟩ => ?_, fun h => ⟨s, h, fun _ => rfl⟩⟩
  have hpc := hcell (regAddr .pc)
  rw [cell_regAddr, cell_regAddr] at hpc
  obtain ⟨ws, hsettle, -⟩ := step_next ht
  have hcode : t.code = s.code := by rw [hsettle, settle_code]
  have hfree : t.freeIndex = s.freeIndex := by rw [hsettle, settle_freeIndex]
  rw [ht, state_ext hcell (step_ram_of_pc_eq ht hpc) hcode hfree]

theorem halted_iff (s : State) : Halted s ↔ step s = .next s := haltedExactlyWhenTheStepFixesTheState s

/-! ### Runs -/

theorem run_zero (s : State) : core.run 0 s = .next s := rfl

theorem run_succ_next {s t : State} (h : step s = .next t) (n : Nat) : core.run (n + 1) s = core.run n t := by
  have hcore : core.step s = .next t := h
  simp only [Host.Core.run, hcore]

theorem run_succ_fault {s : State} {f : Fault} (h : step s = .fault f) (n : Nat) : core.run (n + 1) s = .fault f := by
  have hcore : core.step s = .fault f := h
  simp only [Host.Core.run, hcore]

/-- A step goes on or faults: with the default parameters none is refused. -/
theorem step_next_or_fault (s : State) : (∃ t, step s = .next t) ∨ ∃ f, step s = .fault f := by
  cases h : step s with
  | next t => exact .inl ⟨t, rfl⟩
  | fault f => exact .inr ⟨f, rfl⟩
  | refused r => exact absurd h (step_not_refused s r)

theorem run_next_or_fault (n : Nat) (s : State) : (∃ t, core.run n s = .next t) ∨ ∃ f, core.run n s = .fault f := by
  induction n generalizing s with
  | zero => exact .inl ⟨s, rfl⟩
  | succ n ih =>
    rcases step_next_or_fault s with ⟨t, ht⟩ | ⟨f, hf⟩
    · rw [run_succ_next ht]
      exact ih t
    · exact .inr ⟨f, run_succ_fault hf n⟩

/-- A run that has come to a state goes on from there. -/
theorem run_add {n : Nat} {s t : State} (h : core.run n s = .next t) (k : Nat) :
    core.run (n + k) s = core.run k t := by
  induction n generalizing s with
  | zero =>
    obtain rfl : s = t := Host.Outcome.next.inj h
    rw [Nat.zero_add]
  | succ n ih =>
    rcases step_next_or_fault s with ⟨u, hu⟩ | ⟨f, hf⟩
    · rw [run_succ_next hu] at h
      rw [Nat.add_right_comm, run_succ_next hu, ih h]
    · rw [run_succ_fault hf] at h
      cases h

/-- A fault stays the end of the run. -/
theorem run_add_fault {n : Nat} {s : State} {f : Fault} (h : core.run n s = .fault f) (k : Nat) :
    core.run (n + k) s = .fault f := by
  induction n generalizing s with
  | zero => cases h
  | succ n ih =>
    rcases step_next_or_fault s with ⟨u, hu⟩ | ⟨f', hf⟩
    · rw [run_succ_next hu] at h
      rw [Nat.add_right_comm, run_succ_next hu, ih h]
    · rw [run_succ_fault hf] at h
      rw [Nat.add_right_comm, run_succ_fault hf, h]

/-- Settles O53: a halted state is its own next state. -/
theorem haltedStatesStayForever : Obligations.HaltedStatesStayForever := by
  intro s hs n
  induction n with
  | zero => rfl
  | succ n ih => rw [run_succ_next ((halted_iff s).1 hs), ih]

/-! ### The first halted state -/

theorem haltsAt_unique {s t u : State} {n m : Nat} (hn : HaltsAt s n t) (hm : HaltsAt s m u) : n = m ∧ t = u := by
  obtain ⟨hrun, hhalted, hfirst⟩ := hn
  obtain ⟨hrun', hhalted', hfirst'⟩ := hm
  rcases Nat.lt_trichotomy n m with hlt | rfl | hlt
  · exact absurd hhalted (hfirst' n hlt t hrun)
  · exact ⟨rfl, Host.Outcome.next.inj (hrun.symm.trans hrun')⟩
  · exact absurd hhalted' (hfirst m hlt u hrun')

/-- A run that comes to a halted state has a first one. -/
theorem exists_haltsAt {s t : State} {n : Nat} (hrun : core.run n s = .next t) (ht : Halted t) :
    ∃ m u, HaltsAt s m u := by
  classical
  have hex : ∃ m u, core.run m s = .next u ∧ Halted u := ⟨n, t, hrun, ht⟩
  obtain ⟨u, hu, hhalted⟩ := Nat.find_spec hex
  exact ⟨Nat.find hex, u, hu, hhalted, fun k hk v hv hhalted' => Nat.find_min hex hk ⟨v, hv, hhalted'⟩⟩

/-- From its first halted state on a run stays. -/
theorem run_after_haltsAt {s t : State} {n : Nat} (h : HaltsAt s n t) (k : Nat) : core.run (n + k) s = .next t := by
  obtain ⟨hrun, hhalted, -⟩ := h
  rw [run_add hrun, haltedStatesStayForever t hhalted]

theorem not_faults_of_haltsAt {s t : State} {n : Nat} (h : HaltsAt s n t) : ¬ Faults s := by
  rintro ⟨m, f, hf⟩
  have hnext := run_after_haltsAt h m
  rw [Nat.add_comm, run_add_fault hf] at hnext
  cases hnext

/-- Settles O55: a first halted state excludes another one, and a later fault. -/
theorem aRunEndsOnceOrGoesOnForEver : Obligations.ARunEndsOnceOrGoesOnForEver := by
  intro s
  refine ⟨fun n m t u => haltsAt_unique, ?_, fun n t h => ⟨run_after_haltsAt h, not_faults_of_haltsAt h⟩, ?_⟩
  · rintro d d' ⟨n, t, ht, hd⟩ ⟨m, u, hu, hd'⟩
    obtain ⟨-, rfl⟩ := haltsAt_unique ht hu
    exact funext fun a => (hd a).trans (hd' a).symm
  · constructor
    · rintro ⟨hhalts, hfaults⟩ n
      rcases run_next_or_fault n s with ⟨t, ht⟩ | ⟨f, hf⟩
      · exact ⟨t, ht, fun hhalted => hhalts (exists_haltsAt ht hhalted)⟩
      · exact absurd ⟨n, f, hf⟩ hfaults
    · intro h
      refine ⟨?_, ?_⟩
      · rintro ⟨n, t, hrun, hhalted, -⟩
        obtain ⟨u, hu, hnot⟩ := h n
        obtain rfl : t = u := Host.Outcome.next.inj (hrun.symm.trans hu)
        exact hnot hhalted
      · rintro ⟨n, f, hf⟩
        obtain ⟨u, hu, -⟩ := h n
        cases hf.symm.trans hu

/-! ### The run that computes its end -/

theorem isHalted_iff_halted (s : State) : s.isHalted = true ↔ Halted s := (isHalted_iff s).trans (halted_iff s).symm

theorem runEnd_of_halted {s : State} (h : Halted s) (n : Nat) : runEnd n s = .halted s := by
  cases n <;> simp [runEnd, (isHalted_iff_halted s).2 h]

theorem runEnd_zero {s : State} (h : ¬ Halted s) : runEnd 0 s = .running s := by
  simp [runEnd, mt (isHalted_iff_halted s).1 h]

theorem runEnd_succ_next {s t : State} (h : ¬ Halted s) (hstep : step s = .next t) (n : Nat) :
    runEnd (n + 1) s = runEnd n t := by
  simp [runEnd, mt (isHalted_iff_halted s).1 h, hstep]

theorem runEnd_succ_fault {s : State} {f : Fault} (hstep : step s = .fault f) (n : Nat) :
    runEnd (n + 1) s = .fault f := by
  simp [runEnd, State.isHalted, hstep]

theorem haltsAt_zero_iff {s t : State} : HaltsAt s 0 t ↔ s = t ∧ Halted s := by
  constructor
  · rintro ⟨hrun, hhalted, -⟩
    obtain rfl : s = t := Host.Outcome.next.inj hrun
    exact ⟨rfl, hhalted⟩
  · rintro ⟨rfl, hhalted⟩
    exact ⟨rfl, hhalted, fun k hk => absurd hk (Nat.not_lt_zero k)⟩

/-- The first halted state is one step nearer after a step that is not from it. -/
theorem haltsAt_succ_iff {s t u : State} (h : ¬ Halted s) (hstep : step s = .next u) {k : Nat} :
    HaltsAt s (k + 1) t ↔ HaltsAt u k t := by
  constructor
  · rintro ⟨hrun, hhalted, hfirst⟩
    exact ⟨run_succ_next hstep k ▸ hrun, hhalted, fun j hj v hv =>
      hfirst (j + 1) (Nat.succ_lt_succ hj) v ((run_succ_next hstep j).trans hv)⟩
  · rintro ⟨hrun, hhalted, hfirst⟩
    refine ⟨(run_succ_next hstep k).trans hrun, hhalted, fun j hj v hv => ?_⟩
    cases j with
    | zero =>
      obtain rfl : s = v := Host.Outcome.next.inj hv
      exact h
    | succ j => exact hfirst j (Nat.lt_of_succ_lt_succ hj) v (run_succ_next hstep j ▸ hv)

/-- A run that is not over at once is over within `n + 1` steps if it is within `n` after the first. -/
theorem exists_haltsAt_succ_iff {s t u : State} (h : ¬ Halted s) (hstep : step s = .next u) {n : Nat} :
    (∃ k ≤ n + 1, HaltsAt s k t) ↔ ∃ k ≤ n, HaltsAt u k t := by
  constructor
  · rintro ⟨k, hk, hhalts⟩
    cases k with
    | zero => exact absurd (haltsAt_zero_iff.1 hhalts).2 h
    | succ k => exact ⟨k, Nat.le_of_succ_le_succ hk, (haltsAt_succ_iff h hstep).1 hhalts⟩
  · rintro ⟨k, hk, hhalts⟩
    exact ⟨k + 1, Nat.succ_le_succ hk, (haltsAt_succ_iff h hstep).2 hhalts⟩

theorem not_halted_of_fault {s : State} {f : Fault} (h : step s = .fault f) : ¬ Halted s := by
  rintro ⟨t, ht, -⟩
  cases h.symm.trans ht

theorem not_haltsAt_of_fault {s t : State} {f : Fault} (h : step s = .fault f) (k : Nat) : ¬ HaltsAt s k t := by
  intro hhalts
  cases k with
  | zero => exact not_halted_of_fault h (haltsAt_zero_iff.1 hhalts).2
  | succ k => cases (run_succ_fault h k).symm.trans hhalts.1

/-- What runEnd says of the run: the statement to prove, for one number of steps. -/
def FindsEnd (n : Nat) (s t : State) (f : Fault) : Prop :=
  (runEnd n s = .halted t ↔ ∃ k ≤ n, HaltsAt s k t) ∧
  (runEnd n s = .fault f ↔ core.run n s = .fault f) ∧
  (runEnd n s = .running t ↔ core.run n s = .next t ∧ ¬ Halted t)

/-- The run is over at once. -/
theorem findsEnd_of_halted {s : State} (h : Halted s) (n : Nat) (t : State) (f : Fault) : FindsEnd n s t f := by
  have hrun : core.run n s = .next s := haltedStatesStayForever s h n
  have hzero : HaltsAt s 0 s := haltsAt_zero_iff.2 ⟨rfl, h⟩
  rw [FindsEnd, runEnd_of_halted h, hrun]
  refine ⟨⟨fun heq => ?_, fun ⟨k, _, hk⟩ => ?_⟩, ⟨nofun, nofun⟩, ⟨nofun, fun ⟨heq, hnot⟩ => ?_⟩⟩
  · obtain rfl : s = t := RunEnd.halted.inj heq
    exact ⟨0, Nat.zero_le n, hzero⟩
  · obtain ⟨-, rfl⟩ := haltsAt_unique hzero hk
    rfl
  · obtain rfl : s = t := Host.Outcome.next.inj heq
    exact absurd h hnot

/-- No step is left, and the state is not halted. -/
theorem findsEnd_zero {s : State} (h : ¬ Halted s) (t : State) (f : Fault) : FindsEnd 0 s t f := by
  rw [FindsEnd, runEnd_zero h, run_zero]
  refine ⟨⟨nofun, fun ⟨k, hk, hhalts⟩ => ?_⟩, ⟨nofun, nofun⟩, fun heq => ?_, fun ⟨heq, _⟩ => ?_⟩
  · obtain rfl : k = 0 := Nat.le_zero.1 hk
    exact absurd (haltsAt_zero_iff.1 hhalts).2 h
  · obtain rfl : s = t := RunEnd.running.inj heq
    exact ⟨rfl, h⟩
  · obtain rfl : s = t := Host.Outcome.next.inj heq
    rfl

/-- The next step faults. -/
theorem findsEnd_of_fault {s : State} {f' : Fault} (h : step s = .fault f') (n : Nat) (t : State) (f : Fault) :
    FindsEnd (n + 1) s t f := by
  rw [FindsEnd, runEnd_succ_fault h, run_succ_fault h]
  exact ⟨⟨nofun, fun ⟨k, _, hk⟩ => absurd hk (not_haltsAt_of_fault h k)⟩,
    ⟨fun heq => congrArg _ (RunEnd.fault.inj heq), fun heq => congrArg _ (Host.Outcome.fault.inj heq)⟩, nofun, nofun⟩

/-- Settles O56, by induction on the steps: the run is over at once, or it ends as the rest of it does. -/
theorem runEndFindsTheFirstHaltedState : Obligations.RunEndFindsTheFirstHaltedState := by
  intro n s t f
  change FindsEnd n s t f
  induction n generalizing s with
  | zero =>
    by_cases h : Halted s
    · exact findsEnd_of_halted h 0 t f
    · exact findsEnd_zero h t f
  | succ n ih =>
    by_cases h : Halted s
    · exact findsEnd_of_halted h (n + 1) t f
    · rcases step_next_or_fault s with ⟨u, hu⟩ | ⟨f', hf⟩
      · rw [FindsEnd, runEnd_succ_next h hu, run_succ_next hu, exists_haltsAt_succ_iff h hu]
        exact ih u
      · exact findsEnd_of_fault hf n t f

/-! ### halt -/

/-- Loading pc with its own value changes nothing (R119). -/
theorem exec_load1_pc_self {src : Src} {s : State} (h : s.operand params src = s.pc) :
    exec (.load1 .pc src) s = .next s := by
  rw [exec_load1, h, settle_one]
  rfl

/-- Settles O52: both words load pc with the address they stand at, one as a constant and one as the content of cell
0x06. -/
theorem haltIsAFixedPointOfTheStep : Obligations.HaltIsAFixedPointOfTheStep := by
  intro s hword
  have hstep : step s = .next s := by
    rw [step_params]
    rcases hword with hword | hword
    · have hformat : BitVec.ofNat 16 (0x8800 + s.pc.toNat) = formatA 8 2 0 s.pc :=
        ofNat_eq_of_toNat (toNat_formatA 8 2 0 s.pc)
      obtain ⟨-, -, -, -, -, -, -, -, hload1, -⟩ := decodeWord_formatA 2 0 s.pc
      rw [hword, hformat, hload1]
      exact exec_load1_pc_self rfl
    · have hdecode : decodeWord 0x8906#16 = .load1 .pc (.cell (.abs (regAddr .pc))) := by decide
      rw [hword, hdecode]
      exact exec_load1_pc_self (peek_params s (regAddr .pc))
  exact ⟨hstep, (halted_iff s).2 hstep⟩

end Sys2Proof.Proofs.Run
end

section
/-! The assembler's special forms (R99, R100): the words they assemble to, and a call with its return (R116, R117). -/

namespace Sys2Proof.Proofs.SpecialForms

open Sys2Proof Sys2Proof.Config Sys2Proof.Machine Sys2Proof.Safety Sys2Proof.Proofs.Encoding
  Sys2Proof.Proofs.DataMoves

/-- The word of a format A instruction with a constant operand, as a number. -/
theorem formatA_const_word (op : BitVec 4) (b : BitVec 2) (d : Byte) {n : Nat}
    (hn : n = 0x1000 * op.toNat + 0x400 * b.toNat + d.toNat) : formatA op b 0 d = BitVec.ofNat 16 n := by
  refine (ofNat_eq_of_toNat ?_).symm
  rw [toNat_formatA, hn]
  rfl

/-- swapn is rol.n by 4 (D24). -/
theorem swapn_word (x : GReg) : encode (.rolN x (.imm 4)) = BitVec.ofNat 16 (0xC024 + 0x400 * x.bits.toNat) := by
  refine (ofNat_eq_of_toNat ?_).symm
  have hnat : (formatB x.bits 0 2 (Count.imm 4).bits).toNat =
      0xC000 + 0x400 * x.bits.toNat + 0x100 * 0 + 0x10 * 2 + 4 := toNat_formatB x.bits 0 2 (Count.imm 4).bits
  exact hnat.trans (by omega)

/-- Settles O50: each form assembles to format A constants, to a fixed word, or to rol.n. -/
theorem specialFormsAssembleToTheirWords : Obligations.SpecialFormsAssembleToTheirWords := by
  intro a dst x words w
  have hload (b : BitVec 2) (d : Byte) (n : Nat) (hn : n = 0x8000 + 0x400 * b.toNat + d.toNat) :
      formatA 8 b 0 d = w n := formatA_const_word 8 b d hn
  have hmath (op : BitVec 4) (d : Byte) (n : Nat) (hn : n = 0x1000 * op.toNat + d.toNat) :
      formatA op x.bits 0 d = w (n + 0x400 * x.bits.toNat) := formatA_const_word op x.bits d (by omega)
  have hlink : (a.toNat + 2) % 256 = (a + 2).toNat := (BitVec.toNat_add a 2).symm
  have one {u v : Word} (h : u = v) : [u] = [v] := congrArg (fun w => [w]) h
  refine ⟨rfl, ?_, one (hload 2 dst _ rfl), one (hload 2 a _ rfl), one (hload 3 a _ rfl), one (hload 3 a _ rfl),
    one (hload 2 a _ rfl), one (hmath 2 1 _ rfl), one (hmath 3 1 _ rfl), one (hmath 6 255 _ rfl), rfl, rfl, rfl, rfl,
    one (swapn_word x)⟩
  rw [hlink]
  exact congrArg₂ (fun u v => [u, v]) (hload 3 (a + 2) _ rfl) (hload 2 dst _ rfl)

/-! ### Call and return -/

/-- A jump: pc is the address loaded, and nothing else changes. -/
theorem exec_load1_pc (src : Src) (s : State) :
    ∃ t, exec (.load1 .pc src) s = .next t ∧ t.pc = s.operand params src ∧ SameBut [regAddr .pc] s t := by
  obtain ⟨hcell, hframe, -⟩ := settle_write s (regAddr .pc) (s.operand params src)
  rw [cell_regAddr, reg_pc] at hcell
  exact ⟨_, exec_load1 .pc src s, hcell, sameBut_mono (by simp) hframe⟩

/-- Settles O51: bsub and ret are loads of lr and pc. -/
theorem callThenReturnContinuesAfterTheCall : Obligations.CallThenReturnContinuesAfterTheCall := by
  intro s v dst
  obtain ⟨hlr, htframe, htpc⟩ := settle_write s (regAddr .lr) (s.pc + 2)
  rw [cell_regAddr, reg_lr] at hlr
  obtain ⟨u, hu, hupc, huframe⟩ := exec_load1_pc (.const dst) (s.settle params [(regAddr .lr, s.pc + 2)])
  obtain ⟨v', hv', hvpc, hvframe⟩ := exec_load1_pc (.cell (.abs (regAddr .lr))) v
  have hulr : u.lr = s.pc + 2 := by
    have h := huframe.1 (regAddr .lr) (by decide)
    rwa [cell_regAddr, cell_regAddr, reg_lr, reg_lr, hlr] at h
  refine ⟨_, _, _, _, u, rfl, exec_load1 .lr (.const (s.pc + 2)) s, htpc (by decide), hu, hupc, hulr,
    sameBut_trans htframe (sameBut_mono (by simp) huframe), rfl, fun h => ⟨v', hv', ?_, hvframe⟩⟩
  rw [hvpc, operand_cell]
  exact h.trans hulr

end Sys2Proof.Proofs.SpecialForms
end
